-- ==== Sys2Proof/Word.lean ====
section
/-! DEFINITION. The widths of the machine (spec/00_scope.md R5, R6): bytes, register indices, the
two-bit operand count, the four-bit opcode and the nine-bit program counter. Every value is
unsigned (R7). -/

namespace Sys2Proof

/-- A memory cell, a register and an instruction-stream unit (R5). -/
abbrev Byte := BitVec 8

/-- A register index, 0 to 7: three bits (R5, R20). -/
abbrev RegIdx := BitVec 3

/-- The operand-count field of an instruction byte (R61). -/
abbrev Count := BitVec 2

/-- The opcode field of an instruction byte (R61). -/
abbrev Opcode := BitVec 4

/-- The program counter, and the `info` register, which can hold any address it can (R26, R31). -/
abbrev PcWord := BitVec 9

/-- The `cause` register (R30). -/
abbrev CauseCode := BitVec 3

end Sys2Proof
end

