-- ==== Sys2Proof/Machine/Flags.lean ====
section
/-! DEFINITION. The machine has no status flags, condition codes or predicates (spec/10_state.md
R36): no instruction computes one and none is conditional. What stands here is the arithmetic whose
overflow is recorded nowhere (spec/41_alu.md R105): every result is the true result modulo 256. -/

namespace Sys2Proof.Machine

/-- The ADD unit's result (R101). -/
def addByte (va vb : Byte) : Byte :=
  BitVec.ofNat 8 (va.toNat + vb.toNat)

/-- The MUL unit's result: the low 8 bits of the 16-bit product (R103). -/
def mulByte (va vb : Byte) : Byte :=
  BitVec.ofNat 8 (va.toNat * vb.toNat)

/-- PUSH's decrement, `(v - 1) mod 256`. DESIGN CHOICE of the spec (R122, D4, log entry 4; unsafe). -/
def spDec (v : Byte) : Byte :=
  v - 1#8

/-- POP's increment, `(v + 1) mod 256`. DESIGN CHOICE of the spec (R122, D4, log entry 4; unsafe). -/
def spInc (v : Byte) : Byte :=
  v + 1#8

end Sys2Proof.Machine
end

