-- ==== Sys2Proof/Machine/Operands.lean ====
section
/-! DEFINITION. The operand bytes (spec/30_encoding.md R68, R69; spec/40_execution_loop.md R84): the
check of a register-operand byte and the index it names once the check has passed. The immediate of
LDI is its byte as it stands. -/

namespace Sys2Proof.Machine

/-- `verifyRegister(b) = (b[7:3] = 0)` (R84). -/
def verifyRegister (b : Byte) : Bool :=
  b.extractLsb' 3 5 == 0#5

/-- `b[2:0]`, used only after the check (R68). -/
def regIndex (b : Byte) : RegIdx :=
  b.extractLsb' 0 3

end Sys2Proof.Machine
end

