-- ==== Sys2Proof/Config.lean ====
section
/-! DEFINITION. The implementation parameters that spec/00_scope.md R5 fixes. The spec leaves no
value free (R12 item 6), so there is no opaque constant here. The opcode numbers, which include the
two the spec takes from general knowledge (D1), stand in Sys2Proof/Decode.lean. -/

namespace Sys2Proof.Config

/-- `N`, the number of memory cells (R5). -/
def memSize : Nat := 256

/-- What a cell reads as that nothing has written: memory is zero-initialized (R33). -/
def memInit : Byte := 0x00#8

/-- `SP_INDEX`, the register that is the stack pointer (R5, R21). -/
def spIndex : RegIdx := 7#3

/-- `SP_INIT`, the stack pointer at reset (R5, R35). -/
def spInit : Byte := 0xF3#8

/-- `PC_INIT`, the program counter at reset (R5, R35). -/
def pcInit : PcWord := 0#9

/-- Registers 0 to 6 at reset. DESIGN CHOICE of the spec (D2, log entry 2; unsafe): its source gives
them no value. -/
def regInit : Byte := 0x00#8

end Sys2Proof.Config
end

