-- ==== Sys2Proof/Machine/State.lean ====
section
/-! DEFINITION. The whole state of the machine as plain data (spec/10_state.md, the tuple at its
head; R37: "all the state there is"), the names of the halt conditions, the reasons a step can stop,
and the state after reset (R35). -/

namespace Sys2Proof.Machine

/-- The Dispatcher's state (R29). -/
inductive Run where
  | running
  | halted
deriving DecidableEq, Repr

/-- The five halt conditions (spec/60_exceptions.md R140). -/
inductive Condition where
  /-- HLT (R141). -/
  | halt
  /-- An operand byte that is no register-operand byte (R142). -/
  | invalidRegister
  /-- A direct opcode with no handler (R143). -/
  | invalidOpcode
  /-- An ALU-flagged opcode that is not MUL (R144). -/
  | unsupportedOperation
  /-- An access at an address of 256 or more (R145). -/
  | outOfRange
deriving DecidableEq, Repr

/-- The Register File: eight registers of eight bits, the last the stack pointer (R20, R21). -/
structure Regs where
  x0 : Byte
  x1 : Byte
  x2 : Byte
  x3 : Byte
  x4 : Byte
  x5 : Byte
  x6 : Byte
  x7 : Byte
deriving DecidableEq, Repr

/-- The memory: the cells that differ from what an unlisted address reads as (R33: zero). -/
abbrev Memory := List Host.Cell

/-- The one canonical form of a memory: addresses strictly rising and below 256, no cell that holds
what an unlisted address reads as. Equal memories are then equal lists. -/
abbrev Memory.wf (m : Memory) : Prop :=
  m.Pairwise (fun c d => c.1 < d.1) ∧ ∀ c ∈ m, c.1 < Config.memSize ∧ c.2 ≠ Config.memInit

/-- The state of the machine (spec/10_state.md). -/
structure State where
  /-- `x[0]` to `x[7]` (R20). -/
  regs : Regs
  /-- The program counter (R26). -/
  pc : PcWord
  /-- The one memory (R33). -/
  mem : Memory
  /-- Running or Halted (R29). -/
  run : Run
  /-- Why the machine is halted; 0 while Running (R30). -/
  cause : CauseCode
  /-- The value the halt condition recorded; 0 while Running (R31). -/
  info : PcWord
  /-- The output log, oldest first (R32). -/
  out : List Byte
deriving DecidableEq, Repr

/-- Why a step has no next state. -/
inductive Fault where
  /-- Raised by `step` alone, when it is asked to step a machine that is Halted: "A Halted machine
  takes no step" (spec/60_exceptions.md R153; U13: stuck). Safe: nothing is claimed of a next state
  the machine does not have. -/
  | halted
deriving DecidableEq, Repr

/-- Why an instruction has no meaning in the model. -/
inductive Refusal where
  /-- Raised by an arm of `exec` whose instruction has no meaning yet; no arm uses it. Safe. -/
  | notModelled (mnemonic : String)
deriving DecidableEq, Repr

/-- The machine right after reset (R35, spec/70_reset_and_hazards.md R170), before any image is
loaded. -/
def State.reset : State where
  regs :=
    { x0 := Config.regInit, x1 := Config.regInit, x2 := Config.regInit, x3 := Config.regInit,
      x4 := Config.regInit, x5 := Config.regInit, x6 := Config.regInit, x7 := Config.spInit }
  pc := Config.pcInit
  mem := []
  run := .running
  cause := 0#3
  info := 0#9
  out := []

end Sys2Proof.Machine
end

