-- ==== Sys2Proof/Machine/Ops.lean ====
section
/-! DEFINITION. The named operations every meaning is written in: the Memory block's two primitives
(spec/20_memory.md R41, R42), the Register File's read and write (spec/10_state.md R25), the output
log (R32), the program-counter advance (spec/40_execution_loop.md R89), and taking a halt condition
(spec/60_exceptions.md R150). There is no return from a halt condition (R153): only reset leaves
Halted. -/

namespace Sys2Proof.Machine

/-! ### Memory -/

/-- What an address reads as: the listed cell, else the reset value (R33). -/
def Memory.get : Memory → Nat → Byte
  | [], _ => Config.memInit
  | c :: m, a => if c.1 = a then c.2 else Memory.get m a

/-- Write one cell and keep the canonical form: writing the reset value removes the cell. -/
def Memory.put : Memory → Nat → Byte → Memory
  | [], a, v => if v = Config.memInit then [] else [(a, v)]
  | c :: m, a, v =>
    if c.1 < a then c :: Memory.put m a v
    else if c.1 = a then (if v = Config.memInit then m else (a, v) :: m)
    else if v = Config.memInit then c :: m else (a, v) :: c :: m

/-- `MemRead(a, 1)` of R41: `error a` is OutOfRange(a). The address is not reduced. -/
def memRead (m : Memory) (a : Nat) : Except Nat Byte :=
  if Config.memSize ≤ a then .error a else .ok (Memory.get m a)

/-- `MemWrite(a, 1, v)` of R42: `error a` is OutOfRange(a). -/
def memWrite (m : Memory) (a : Nat) (v : Byte) : Except Nat Memory :=
  if Config.memSize ≤ a then .error a else .ok (Memory.put m a v)

/-- Store bytes at ascending addresses from `a`, those that lie in memory (R172). -/
def storeBytes : Memory → Nat → List Byte → Memory
  | m, _, [] => m
  | m, a, b :: bs =>
    storeBytes (if Config.memSize ≤ a then m else Memory.put m a b) (a + 1) bs

/-! ### Registers -/

/-- The Register File's read (R25). -/
def Regs.get (r : Regs) (i : RegIdx) : Byte :=
  match i.toNat with
  | 0 => r.x0
  | 1 => r.x1
  | 2 => r.x2
  | 3 => r.x3
  | 4 => r.x4
  | 5 => r.x5
  | 6 => r.x6
  | _ => r.x7

/-- The Register File's write (R25). -/
def Regs.set (r : Regs) (i : RegIdx) (v : Byte) : Regs :=
  match i.toNat with
  | 0 => { r with x0 := v }
  | 1 => { r with x1 := v }
  | 2 => { r with x2 := v }
  | 3 => { r with x3 := v }
  | 4 => { r with x4 := v }
  | 5 => { r with x5 := v }
  | 6 => { r with x6 := v }
  | _ => { r with x7 := v }

/-- `x[i]`. -/
def getReg (s : State) (i : RegIdx) : Byte :=
  s.regs.get i

/-- `x[i] <- v`. No register is hard-wired or read-only (R22). -/
def setReg (i : RegIdx) (v : Byte) (s : State) : State :=
  { s with regs := s.regs.set i v }

/-- Replace the memory. -/
def setMem (m : Memory) (s : State) : State :=
  { s with mem := m }

/-! ### Output, program counter, halt conditions -/

/-- `out <- out ++ [v]` (R32). -/
def emit (v : Byte) (s : State) : State :=
  { s with out := s.out ++ [v] }

/-- `pc <- pc + 1 + n`: nine bits, so no wrap at 255 (R26, R89; D3, log entry 3). -/
def advance (n : Count) (s : State) : State :=
  { s with pc := s.pc + 1#9 + n.setWidth 9 }

/-- The code a halt condition writes to `cause`. DESIGN CHOICE of the spec (R148, D5, log entry 5;
safe). -/
def causeCode : Condition → CauseCode
  | .halt => 1#3
  | .invalidRegister => 2#3
  | .invalidOpcode => 3#3
  | .unsupportedOperation => 4#3
  | .outOfRange => 5#3

/-- Take a halt condition: the machine is Halted, `cause` and `info` say why, and nothing else
changes, the program counter included (R150). -/
def raise (e : Condition) (i : PcWord) (s : State) : State :=
  { s with run := .halted, cause := causeCode e, info := i }

/-- `raise InvalidRegister(zext_9(b))` for the raw operand byte `b` (R142). -/
def raiseInvalidRegister (b : Byte) (s : State) : State :=
  raise .invalidRegister (b.setWidth 9) s

/-- `raise OutOfRange(a)` (R145). -/
def raiseOutOfRange (a : Nat) (s : State) : State :=
  raise .outOfRange (BitVec.ofNat 9 a) s

end Sys2Proof.Machine
end

