-- ==== Sys2Proof/Machine/Alu.lean ====
section
/-! DEFINITION. The ALU block with its two operation units, and the meaning of MUL (spec/41_alu.md). -/

namespace Sys2Proof.Machine

/-- The operations of the ALU, by symbolic name (R100). The contract's "any other operation name" is
no value of this type: the Dispatcher never presents one (R102; log entry 12). -/
inductive AluOp where
  /-- No instruction reaches it (R102, D18). -/
  | add
  | mul
deriving DecidableEq, Repr

/-- The result of an operation unit (R101, R103). -/
def aluResult : AluOp → Byte → Byte → Byte
  | .add, va, vb => addByte va vb
  | .mul, va, vb => mulByte va vb

/-- `ALU.apply(operation, a, b)` (R100): both registers are read before register `a` is written. -/
def aluApply (op : AluOp) (a b : RegIdx) (s : State) : State :=
  setReg a (aluResult op (getReg s a) (getReg s b)) s

/-- MUL Ra, Rb (R104, spec/40_execution_loop.md R86): both operand bytes are validated, A first. -/
def execMul (n : Count) (a b : Byte) (s : State) : Host.Outcome State Fault Refusal :=
  if verifyRegister a = false then .next (raiseInvalidRegister a s)
  else if verifyRegister b = false then .next (raiseInvalidRegister b s)
  else .next (advance n (aluApply .mul (regIndex a) (regIndex b) s))

end Sys2Proof.Machine
end

