-- ==== Sys2Proof/Machine/Halt.lean ====
section
/-! DEFINITION. The meaning of HLT (spec/44_halt.md). -/

namespace Sys2Proof.Machine

/-- HLT (R130): `raise Halt(0)`. The operand-count field is not used and the program counter stays
(spec/40_execution_loop.md R90, C8). -/
def execHlt (_n : Count) (s : State) : Host.Outcome State Fault Refusal :=
  .next (raise .halt 0#9 s)

end Sys2Proof.Machine
end

