-- ==== Sys2Proof/Machine/LoadPrint.lean ====
section
/-! DEFINITION. The meanings of LDI and PRN (spec/42_load_immediate_and_print.md). -/

namespace Sys2Proof.Machine

/-- LDI Rd, imm (R110): `x[d] <- imm`. -/
def execLdi (n : Count) (d imm : Byte) (s : State) : Host.Outcome State Fault Refusal :=
  if verifyRegister d then .next (advance n (setReg (regIndex d) imm s))
  else .next (raiseInvalidRegister d s)

/-- PRN Rs (R111): `out <- out ++ [x[s]]`; no register and no memory cell changes. -/
def execPrn (n : Count) (src : Byte) (s : State) : Host.Outcome State Fault Refusal :=
  if verifyRegister src then .next (advance n (emit (getReg s (regIndex src)) s))
  else .next (raiseInvalidRegister src s)

end Sys2Proof.Machine
end

