-- ==== Sys2Proof/Machine/Stack.lean ====
section
/-! DEFINITION. The meanings of PUSH and POP (spec/43_stack.md). -/

namespace Sys2Proof.Machine

/-- The address a stack access uses: the stack pointer's value, so always in range
(spec/20_memory.md R45). -/
def stackAddr (s : State) : Nat :=
  (getReg s Config.spIndex).toNat

/-- `x[7] <- (x[7] - 1) mod 256` (R122). -/
def decSp (s : State) : State :=
  setReg Config.spIndex (spDec (getReg s Config.spIndex)) s

/-- `x[7] <- (x[7] + 1) mod 256` (R122). -/
def incSp (s : State) : State :=
  setReg Config.spIndex (spInc (getReg s Config.spIndex)) s

/-- PUSH Rs (R120). The address and the source register are both read after the decrement, so
`PUSH R7` stores the decremented pointer. The write cannot be out of range (spec/20_memory.md R45). -/
def execPush (n : Count) (src : Byte) (s : State) : Host.Outcome State Fault Refusal :=
  if verifyRegister src then
    match memWrite s.mem (stackAddr (decSp s)) (getReg (decSp s) (regIndex src)) with
    | .ok m => .next (advance n (setMem m (decSp s)))
    | .error a => .next (raiseOutOfRange a s)
  else .next (raiseInvalidRegister src s)

/-- POP Rd (R121). The increment reads the stack pointer after the load, so `POP R7` leaves the
loaded byte plus one. The read cannot be out of range (spec/20_memory.md R45). -/
def execPop (n : Count) (d : Byte) (s : State) : Host.Outcome State Fault Refusal :=
  if verifyRegister d then
    match memRead s.mem (stackAddr s) with
    | .ok v => .next (advance n (incSp (setReg (regIndex d) v s)))
    | .error a => .next (raiseOutOfRange a s)
  else .next (raiseInvalidRegister d s)

end Sys2Proof.Machine
end

