-- ==== Sys2Proof/Syntax.lean ====
section
/-! DEFINITION. The instructions: one constructor per row of spec/opcode_table.json. An instruction
holds the operand-count field `n` of its instruction byte, which moves the program counter
(spec/30_encoding.md R71), and the RAW operand bytes of its format (R70), which the handler
validates before it uses them as register indices (R68). Bit 4 of the instruction byte is in no
field and two bytes that differ only there are the same instruction (R64), so no constructor
carries it. -/

namespace Sys2Proof

/-- The six instructions (spec/30_encoding.md R72, R73), in the order of opcode_table.json. -/
inductive Instr where
  /-- HLT: format Z, no operand byte (spec/44_halt.md R130). -/
  | hlt (n : Count)
  /-- LDI Rd, imm: format RI (spec/42_load_immediate_and_print.md R110). -/
  | ldi (n : Count) (d : Byte) (imm : Byte)
  /-- PUSH Rs: format R (spec/43_stack.md R120). -/
  | push (n : Count) (src : Byte)
  /-- POP Rd: format R (spec/43_stack.md R121). -/
  | pop (n : Count) (d : Byte)
  /-- PRN Rs: format R (spec/42_load_immediate_and_print.md R111). -/
  | prn (n : Count) (src : Byte)
  /-- MUL Ra, Rb: format RR, dispatched to the ALU (spec/41_alu.md R104). -/
  | mul (n : Count) (a : Byte) (b : Byte)
deriving DecidableEq, Repr

/-- The operand-count field of the instruction byte, whatever the format reads (R71). -/
def Instr.count : Instr → Count
  | .hlt n => n
  | .ldi n _ _ => n
  | .push n _ => n
  | .pop n _ => n
  | .prn n _ => n
  | .mul n _ _ => n

/-- The same instruction with another operand-count field: a non-canonical encoding of it (R76). -/
def Instr.withCount (m : Count) : Instr → Instr
  | .hlt _ => .hlt m
  | .ldi _ d imm => .ldi m d imm
  | .push _ src => .push m src
  | .pop _ d => .pop m d
  | .prn _ src => .prn m src
  | .mul _ a b => .mul m a b

/-- The register-operand bytes of the instruction, in the order they are validated (R85, R86). -/
def Instr.registerBytes : Instr → List Byte
  | .hlt _ => []
  | .ldi _ d _ => [d]
  | .push _ src => [src]
  | .pop _ d => [d]
  | .prn _ src => [src]
  | .mul _ a b => [a, b]

/-- How many operand bytes the format reads (R70), which is also the canonical count (R76). -/
def Instr.operandBytes : Instr → Nat
  | .hlt _ => 0
  | .ldi _ _ _ => 2
  | .push _ _ => 1
  | .pop _ _ => 1
  | .prn _ _ => 1
  | .mul _ _ _ => 2

end Sys2Proof
end

