-- ==== Sys2Proof/Machine/Dispatch.lean ====
section
/-! DEFINITION. The Dispatcher's choice of handler (spec/40_execution_loop.md R80, R86, R87): one arm
per constructor of Instr. -/

namespace Sys2Proof.Machine

/-- The effect of an instruction in a state the Dispatcher has fetched it in (R80). -/
def exec (i : Instr) (s : State) : Host.Outcome State Fault Refusal :=
  match i with
  | .hlt n => Sys2Proof.Machine.execHlt n s
  | .ldi n d imm => Sys2Proof.Machine.execLdi n d imm s
  | .push n src => Sys2Proof.Machine.execPush n src s
  | .pop n d => Sys2Proof.Machine.execPop n d s
  | .prn n src => Sys2Proof.Machine.execPrn n src s
  | .mul n a b => Sys2Proof.Machine.execMul n a b s

end Sys2Proof.Machine
end

