-- ==== Sys2Proof/WellFormed.lean ====
section
/-! DEFINITION. When an instruction's operand bytes are valid (spec/30_encoding.md R68): each
register-operand byte is one of 0x00 to 0x07. Nothing else is checked: every operand count is legal
(R62, R71) and so is every immediate (R69). An instruction that is not well-formed still has a
meaning: it takes the halt condition InvalidRegister (spec/60_exceptions.md R142). -/

namespace Sys2Proof

/-- The valid register-operand bytes are exactly 0x00 to 0x07 (R68). -/
def registerByteOk (b : Byte) : Bool :=
  decide (b.toNat ≤ 7)

/-- Every register-operand byte of the instruction is valid. -/
def Instr.wf : Instr → Bool
  | .hlt _ => true
  | .ldi _ d _ => registerByteOk d
  | .push _ src => registerByteOk src
  | .pop _ d => registerByteOk d
  | .prn _ src => registerByteOk src
  | .mul _ a b => registerByteOk a && registerByteOk b

end Sys2Proof
end

