-- ==== Sys2Proof/Decode.lean ====
section
/-! DEFINITION. The Instruction Decoder and the choice of handler (spec/30_encoding.md R60 to R76;
spec/40_execution_loop.md R82, R83, R87, R88), total on any list of bytes, and the encoder written
from the same tables. The list holds the byte at the program counter and the bytes after it, as
far as memory goes: a handler that needs a byte beyond the list is rejected by name, and
Machine/Fetch.lean turns that rejection into the halt condition the spec gives it. -/

namespace Sys2Proof

/-! ### The opcode numbers -/

/-- HLT, direct table (R72). -/
def opHlt : Opcode := 0b0001#4

/-- LDI, direct table (R72). -/
def opLdi : Opcode := 0b0010#4

/-- PUSH, direct table. PRESUMED by the spec (D1, general knowledge; log entry 1; unsafe). -/
def opPush : Opcode := 0b0101#4

/-- POP, direct table. PRESUMED by the spec (D1, general knowledge; log entry 1; unsafe). -/
def opPop : Opcode := 0b0110#4

/-- PRN, direct table (R72). -/
def opPrn : Opcode := 0b0111#4

/-- MUL, the one entry of the ALU table (R73). -/
def opMul : Opcode := 0b0010#4

/-! ### The fields of an instruction byte -/

/-- What the decoder extracts from one byte (R82). -/
structure Fields where
  /-- Bits 3:0. -/
  op : Opcode
  /-- Bit 5: dispatched to the ALU. -/
  alu : Bool
  /-- Bits 7:6. -/
  n : Count
deriving DecidableEq, Repr

/-- `Decode` of R82: it never fails, and bit 4 is in no field (R64). -/
def decodeFields (ib : Byte) : Fields where
  op := ib.extractLsb' 0 4
  alu := ib.getLsbD 5
  n := ib.extractLsb' 6 2

/-- Why a list of bytes is no instruction. Each reason is a halt condition of the machine, taken by
Machine/Fetch.lean; none of them is a refusal. -/
inductive Reject where
  /-- There is no instruction byte: the fetch is out of range (R81). -/
  | noByte
  /-- Operand byte `k` (1 or 2) is missing: its read is out of range (R85, R86). -/
  | noOperand (k : Nat)
  /-- A direct opcode with no handler; no operand byte is looked at (R74, R88). -/
  | undefinedDirect (op : Opcode)
  /-- An ALU-flagged opcode that is not MUL, with the two operand bytes it reads first (R75). -/
  | undefinedAlu (op : Opcode) (a b : Byte)
deriving DecidableEq, Repr

/-- Format R reads one operand byte (R70). -/
def decodeR (mk : Byte → Instr) : List Byte → Except Reject Instr
  | [] => .error (.noOperand 1)
  | o1 :: _ => .ok (mk o1)

/-- Formats RI and RR read two operand bytes, in ascending order (R70, R85). -/
def decodeTwo (mk : Byte → Byte → Except Reject Instr) : List Byte → Except Reject Instr
  | [] => .error (.noOperand 1)
  | [_] => .error (.noOperand 2)
  | o1 :: o2 :: _ => mk o1 o2

/-- The direct table (R72, R87, R88). -/
def decodeDirect (f : Fields) (rest : List Byte) : Except Reject Instr :=
  if f.op = opHlt then .ok (.hlt f.n)
  else if f.op = opLdi then decodeTwo (fun d imm => .ok (.ldi f.n d imm)) rest
  else if f.op = opPush then decodeR (.push f.n) rest
  else if f.op = opPop then decodeR (.pop f.n) rest
  else if f.op = opPrn then decodeR (.prn f.n) rest
  else .error (.undefinedDirect f.op)

/-- The ALU path: both operand bytes are read before the opcode is looked up (R75, R86). -/
def decodeAlu (f : Fields) (rest : List Byte) : Except Reject Instr :=
  decodeTwo (fun a b =>
    if f.op = opMul then .ok (.mul f.n a b) else .error (.undefinedAlu f.op a b)) rest

/-- The instruction that begins a list of bytes; the ALU flag alone selects the table (R83). -/
def decode : List Byte → Except Reject Instr
  | [] => .error .noByte
  | ib :: rest =>
    if (decodeFields ib).alu then decodeAlu (decodeFields ib) rest
    else decodeDirect (decodeFields ib) rest

/-! ### The encoder -/

/-- The instruction byte with the given fields and bit 4 zero (R61, R76). -/
def instructionByte (n : Count) (alu : Bool) (op : Opcode) : Byte :=
  n ++ BitVec.ofBool alu ++ 0#1 ++ op

/-- The instruction byte of an instruction: its count, its table and its opcode (R72, R73). -/
def firstByte : Instr → Byte
  | .hlt n => instructionByte n false opHlt
  | .ldi n _ _ => instructionByte n false opLdi
  | .push n _ => instructionByte n false opPush
  | .pop n _ => instructionByte n false opPop
  | .prn n _ => instructionByte n false opPrn
  | .mul n _ _ => instructionByte n true opMul

/-- The operand bytes of an instruction, in ascending address order (R47, R70). -/
def operandList : Instr → List Byte
  | .hlt _ => []
  | .ldi _ d imm => [d, imm]
  | .push _ src => [src]
  | .pop _ d => [d]
  | .prn _ src => [src]
  | .mul _ a b => [a, b]

/-- The bytes of an instruction, lowest address first (R47, R60). -/
def encode (i : Instr) : List Byte :=
  firstByte i :: operandList i

/-! ### The host's numbering of an instruction's bits -/

/-- The three bytes of an instruction whose low `nbits` bits are `w`, bit 0 the least significant
bit of the first byte, every bit above `nbits` zero. Three is the longest instruction that is read. -/
def tableBytes (nbits w : Nat) : List Byte :=
  [BitVec.ofNat 8 (w % 2 ^ nbits), BitVec.ofNat 8 (w % 2 ^ nbits / 2 ^ 8),
    BitVec.ofNat 8 (w % 2 ^ nbits / 2 ^ 16)]

/-- The instruction the decoder reads from a word of the opcode table. -/
def decodeTableWord (nbits w : Nat) : Option Instr :=
  match decode (tableBytes nbits w) with
  | .ok i => some i
  | .error _ => none

end Sys2Proof
end

