-- ==== Sys2Proof/Machine/Fetch.lean ====
section
/-! DEFINITION. Fetching an instruction's bytes (spec/40_execution_loop.md R81, R85, R86) and the halt
condition that each rejection of the decoder takes. Reads have no side effect (spec/20_memory.md
R49), so the at most three bytes a handler may read are looked up together, as far as memory goes,
and a byte no handler asks for makes no difference. -/

namespace Sys2Proof.Machine

/-- The bytes at `k` addresses from `a`, up to the first that is out of range. -/
def bytesFrom (m : Memory) : Nat → Nat → List Byte
  | 0, _ => []
  | k + 1, a =>
    match memRead m a with
    | .ok b => b :: bytesFrom m k (a + 1)
    | .error _ => []

/-- The bytes a step can read: at `pc`, `pc + 1` and `pc + 2`, natural numbers that do not wrap
(spec/20_memory.md R44, R57). -/
def fetchWindow (s : State) : List Byte :=
  bytesFrom s.mem 3 s.pc.toNat

/-- The halt condition of bytes that are no instruction, in the priority of spec/60_exceptions.md
R152. -/
def takeReject : Reject → State → State
  | .noByte, s => raiseOutOfRange s.pc.toNat s
  | .noOperand k, s => raiseOutOfRange (s.pc.toNat + k) s
  | .undefinedDirect op, s => raise .invalidOpcode (op.setWidth 9) s
  | .undefinedAlu op a b, s =>
    if verifyRegister a = false then raiseInvalidRegister a s
    else if verifyRegister b = false then raiseInvalidRegister b s
    else raise .unsupportedOperation (op.setWidth 9) s

end Sys2Proof.Machine
end

