-- ==== Sys2Proof/Machine/Step.lean ====
section
/-! DEFINITION. One step of the Dispatcher (spec/40_execution_loop.md R80), defined for a Running
machine; a Halted machine takes no step (spec/60_exceptions.md R153). -/

namespace Sys2Proof.Machine

/-- Fetch, decode, execute (R80). Bytes that are no instruction take their halt condition, which is a
next state like any other. -/
def step (s : State) : Host.Outcome State Fault Refusal :=
  match s.run with
  | .halted => .fault .halted
  | .running =>
    match decode (fetchWindow s) with
    | .ok i => exec i s
    | .error r => .next (takeReject r s)

/-- The state with an instruction of the opcode table stored at the program counter, where the next
step fetches: it stands for the host's load (log entry 13). -/
def State.withFetchWord (s : State) (nbits w : Nat) : State :=
  { s with mem := storeBytes s.mem s.pc.toNat (tableBytes nbits w) }

end Sys2Proof.Machine
end

