-- ==== Sys2Proof/Machine/HostOps.lean ====
section
/-! DEFINITION. What the host can do to the machine, outside its steps (spec/70_reset_and_hazards.md
R170 to R177, R185): reset it, load a program image once after reset, and read the result of a run.
While the machine is Running the host has no move (R177). -/

namespace Sys2Proof.Machine

/-- A program image: a list of at most 256 bytes, by type (R173, D14). -/
structure Image where
  bytes : List Byte
  fits : bytes.length ≤ Config.memSize

/-- Reset, in any state; the result does not depend on the state before (R170). -/
def hostReset (_s : State) : State :=
  State.reset

/-- Write an image into memory from address 0, in order (R172). -/
def hostLoad (p : Image) (s : State) : State :=
  { s with mem := storeBytes s.mem 0 p.bytes }

/-- `Init(P)`, the state a run starts from: reset, then the load (R172, D15). -/
def initWith (p : Image) : State :=
  hostLoad p State.reset

/-- The observable result of a run (R185). -/
structure Result where
  out : List Byte
  cause : CauseCode
  info : PcWord
deriving DecidableEq, Repr

/-- Read the result off a state (R177, R185). -/
def observe (s : State) : Result where
  out := s.out
  cause := s.cause
  info := s.info

end Sys2Proof.Machine
end

