-- ==== Sys2Proof/Safety.lean ====
section
/-! DEFINITION. The terms claims are stated in: a run, its clean end, and the invariant of the
machine (spec/10_state.md R34, spec/60_exceptions.md R149, spec/70_reset_and_hazards.md R183, R185). -/

namespace Sys2Proof.Safety

open Sys2Proof.Machine

/-- The loop of spec/40_execution_loop.md R91: at most `k` steps, none from a Halted state. -/
def runFor : Nat → State → State
  | 0, s => s
  | k + 1, s =>
    match step s with
    | .next t => runFor k t
    | .fault _ => s
    | .refused _ => s

/-- A run has ended cleanly exactly when its cause is HLT's (R185). -/
def Clean (s : State) : Prop :=
  s.run = .halted ∧ s.cause = causeCode .halt

/-- The value a halt records lies in the range R149 gives its cause. -/
def InfoFits (c : CauseCode) (i : PcWord) : Prop :=
  (c = 1#3 ∧ i = 0#9) ∨
  (c = 2#3 ∧ 8 ≤ i.toNat ∧ i.toNat ≤ 255) ∨
  (c = 3#3 ∧ i.toNat ∈ [0, 3, 4, 8, 9, 10, 11, 12, 13, 14, 15]) ∨
  (c = 4#3 ∧ i.toNat ≤ 15 ∧ i.toNat ≠ 2) ∨
  (c = 5#3 ∧ 256 ≤ i.toNat ∧ i.toNat ≤ 259)

/-- `cause` and `info` are zero while Running and say why the machine stopped once it is Halted
(R30, R31, R34, R149). -/
def StatusFits (s : State) : Prop :=
  (s.run = .running → s.cause = 0#3 ∧ s.info = 0#9) ∧ (s.run = .halted → InfoFits s.cause s.info)

/-- The invariant of R34, with R149's ranges and the canonical form of memory. -/
def Inv (s : State) : Prop :=
  StatusFits s ∧ s.pc.toNat ≤ 259 ∧ Memory.wf s.mem

/-! ### Words for statements -/

/-- The byte `k` places after the program counter. -/
def byteAt (s : State) (k : Nat) : Byte :=
  Memory.get s.mem (s.pc.toNat + k)

/-- The dispatch key `ib & 0x2F` of the byte at the program counter (spec/30_encoding.md, before
R72). -/
def dispatchKey (s : State) : Byte :=
  byteAt s 0 &&& 0x2F#8

/-- Every address reads as before. -/
def SameMemory (s t : State) : Prop :=
  ∀ a, Memory.get t.mem a = Memory.get s.mem a

/-- Neither the Dispatcher's state nor the two status registers changed. -/
def SameStatus (s t : State) : Prop :=
  t.run = s.run ∧ t.cause = s.cause ∧ t.info = s.info

/-- The state after a halt: `run`, `cause` and `info` as given and all else as it was (R150). The
codes are the numbers of R148. -/
def haltedWith (code : CauseCode) (v : PcWord) (s : State) : State :=
  { s with run := .halted, cause := code, info := v }

/-- The registers an instruction may write (spec/10_state.md R23, R24). -/
def writtenRegs : Instr → List RegIdx
  | .hlt _ => []
  | .ldi _ d _ => [regIndex d]
  | .push _ _ => [7#3]
  | .pop _ d => [regIndex d, 7#3]
  | .prn _ _ => []
  | .mul _ a _ => [regIndex a]

end Sys2Proof.Safety
end

