-- ==== Sys2Proof/Certificates/Slice0/Obligations.lean ====
section
/-! DEFINITION. The statements for the provers, from the numbered rules of spec/. Where a statement
rests on a decision of the spec that its own source does not force (D<n> of
spec/92_eei_decisions.md), its docstring names the decision and the log entry. -/

open Sys2Proof Sys2Proof.Machine Sys2Proof.Safety

/-! ### Decoder and encoder -/

/-- R82: the three fields of every instruction byte; each is a function of the byte's own bits. -/
def Obligations.DecodeFieldsAreBitFields : Prop :=
  ∀ ib : Byte,
    (decodeFields ib).op.toNat = ib.toNat % 16 ∧
    ((decodeFields ib).alu = true ↔ ib.toNat / 32 % 2 = 1) ∧
    (decodeFields ib).n.toNat = ib.toNat / 64

/-- R84: `verifyRegister(b) = (b[7:3] = 0)`, equivalently `b <= 7`, equivalently `(b & 0xF8) = 0`. -/
def Obligations.VerifyRegisterChecksUpperFiveBits : Prop :=
  ∀ b : Byte,
    (verifyRegister b = true ↔ b.toNat / 8 = 0) ∧
    (verifyRegister b = true ↔ b.toNat ≤ 7) ∧
    (verifyRegister b = true ↔ b &&& 0xF8#8 = 0#8)

/-- A valid register-operand byte names the register of its own number, and every register, the
stack pointer included, has such a byte (30_encoding.md section 2; R22). -/
def Obligations.ValidOperandNamesItsRegister : Prop :=
  (∀ b : Byte, verifyRegister b = true → (regIndex b).toNat = b.toNat) ∧
  ∀ r : RegIdx, ∃ b : Byte, verifyRegister b = true ∧ regIndex b = r

/-- Bit 4 of the instruction byte changes nothing about what is decoded. It rests on the spec's
decision D9 (log entry 7). -/
def Obligations.BitFourOfInstructionByteIgnored : Prop :=
  ∀ (ib : Byte) (rest : List Byte), decode ((ib ^^^ 0x10#8) :: rest) = decode (ib :: rest)

/-- Decoding an encoded instruction gives it back, whatever bytes follow: every operand count, every
operand byte (valid or not) and every immediate survives. The opcode numbers of PUSH and POP in both
directions are the spec's decision D1 (log entry 1); that every count, 3 and the non-canonical ones
included, decodes to the instruction is D8 (log entry 7). -/
def Obligations.DecodeEncodeRoundTrip : Prop :=
  ∀ (i : Instr) (rest : List Byte), decode (encode i ++ rest) = .ok i

/-- Bytes that decode to an instruction are its encoding and what follows it, but for bit 4 of the
instruction byte. That bit 4 has no meaning and that every count is accepted are the spec's decisions D9
and D8 (log entry 7); the numbers of PUSH and POP are D1 (log entry 1). -/
def Obligations.AcceptedBytesAreEncodings : Prop :=
  ∀ (ib : Byte) (rest : List Byte) (i : Instr), decode (ib :: rest) = .ok i →
    ∃ tail, (ib &&& 0xEF#8) :: rest = encode i ++ tail

/-- The dispatch of every byte value by its key `ib & 0x2F`: six keys select an instruction, the other
direct keys are undefined without a look at any operand byte, and the other ALU keys are undefined with
both. The two numbers 0x05 and 0x06, and with them the list of undefined direct opcodes, are the
spec's decision D1 (log entry 1). That the key leaves out bit 4 and the count, so that every byte value
with the key is accepted, is D9 and D8 (log entry 7). That an undefined ALU opcode is one with two operand
bytes, apart from the direct ones, is C1 (log entry 11). -/
def Obligations.DispatchTableOfAllBytes : Prop :=
  ∀ (ib o1 o2 : Byte) (rest : List Byte),
    (ib &&& 0x2F#8 = 0x01#8 →
      decode (ib :: o1 :: o2 :: rest) = .ok (.hlt (ib.extractLsb' 6 2)) ∧
      decode [ib] = .ok (.hlt (ib.extractLsb' 6 2))) ∧
    (ib &&& 0x2F#8 = 0x02#8 →
      decode (ib :: o1 :: o2 :: rest) = .ok (.ldi (ib.extractLsb' 6 2) o1 o2)) ∧
    (ib &&& 0x2F#8 = 0x05#8 →
      decode (ib :: o1 :: rest) = .ok (.push (ib.extractLsb' 6 2) o1)) ∧
    (ib &&& 0x2F#8 = 0x06#8 →
      decode (ib :: o1 :: rest) = .ok (.pop (ib.extractLsb' 6 2) o1)) ∧
    (ib &&& 0x2F#8 = 0x07#8 →
      decode (ib :: o1 :: rest) = .ok (.prn (ib.extractLsb' 6 2) o1)) ∧
    (ib &&& 0x2F#8 = 0x22#8 →
      decode (ib :: o1 :: o2 :: rest) = .ok (.mul (ib.extractLsb' 6 2) o1 o2)) ∧
    (ib.getLsbD 5 = false → ib.toNat % 16 ∈ [0, 3, 4, 8, 9, 10, 11, 12, 13, 14, 15] →
      decode (ib :: rest) = .error (.undefinedDirect (ib.extractLsb' 0 4))) ∧
    (ib.getLsbD 5 = true → ib.toNat % 16 ≠ 2 →
      decode (ib :: o1 :: o2 :: rest) = .error (.undefinedAlu (ib.extractLsb' 0 4) o1 o2))

/-- Words written out in binary, one or two for each instruction, and two that are none. A sanity
statement. The canonical HLT, LDI, PRN and MUL words follow R72 and R73. The PUSH and POP words rest on the
spec's decision D1 (log entry 1); the words with bit 4 set, with n = 3 and with n = 0 where an operand is
read rest on D9 and D8 (log entry 7); the undefined ALU word rests on C1 (log entry 11). -/
def Obligations.DecodedWordsOfEveryInstruction : Prop :=
  decode [0b00000001#8] = .ok (.hlt 0#2) ∧
  decode [0b11000001#8] = .ok (.hlt 3#2) ∧
  decode [0b10000010#8, 0#8, 42#8] = .ok (.ldi 2#2 0#8 42#8) ∧
  decode [0b10010010#8, 3#8, 0x77#8] = .ok (.ldi 2#2 3#8 0x77#8) ∧
  decode [0b01000101#8, 7#8] = .ok (.push 1#2 7#8) ∧
  decode [0b01000110#8, 1#8] = .ok (.pop 1#2 1#8) ∧
  decode [0b01000111#8, 0#8] = .ok (.prn 1#2 0#8) ∧
  decode [0b11000111#8, 7#8] = .ok (.prn 3#2 7#8) ∧
  decode [0b10100010#8, 0#8, 1#8] = .ok (.mul 2#2 0#8 1#8) ∧
  decode [0b00100010#8, 2#8, 3#8] = .ok (.mul 0#2 2#8 3#8) ∧
  decode [0b00001111#8] = .error (.undefinedDirect 15#4) ∧
  decode [0b10100000#8, 0#8, 1#8] = .error (.undefinedAlu 0#4 0#8 1#8)

/-! ### The step -/

/-- A step of a Running machine runs the instruction that the bytes at the program counter decode to,
with nothing added around it, and for an ill-formed instruction too (R80); those bytes are the cells at
`pc`, `pc + 1`, `pc + 2` that exist (R47). That the three bytes are looked up together is the model's
form of the handler's reads (log entry 15, DEDUCED from R49); that their addresses do not wrap past 255 is
the spec's decision D3 (log entry 3). -/
def Obligations.StepRunsDecodedInstruction : Prop :=
  (∀ (s : State) (i : Instr), s.run = .running → decode (fetchWindow s) = .ok i →
    step s = exec i s) ∧
  ∀ (s : State) (k : Nat), (fetchWindow s)[k]? =
    if k < 3 ∧ s.pc.toNat + k < 256 then some (byteAt s k) else none

/-- What a step of a Running machine executes, read off memory: the key of the byte at the program
counter selects the instruction, its operand bytes follow it, and its count is bits 7:6 (R80). Each
holds as far up in memory as the operand bytes allow. The numbers 0x05 and 0x06 are the spec's
decision D1 (log entry 1); that every bit 4 and every count is accepted is D9 and D8 (log entry 7); that
the bytes are looked up together is log entry 15. -/
def Obligations.StepDispatchesByKey : Prop :=
  ∀ s : State, s.run = .running →
    (s.pc.toNat ≤ 255 → dispatchKey s = 0x01#8 →
      step s = exec (.hlt ((byteAt s 0).extractLsb' 6 2)) s) ∧
    (s.pc.toNat ≤ 253 → dispatchKey s = 0x02#8 →
      step s = exec (.ldi ((byteAt s 0).extractLsb' 6 2) (byteAt s 1) (byteAt s 2)) s) ∧
    (s.pc.toNat ≤ 254 → dispatchKey s = 0x05#8 →
      step s = exec (.push ((byteAt s 0).extractLsb' 6 2) (byteAt s 1)) s) ∧
    (s.pc.toNat ≤ 254 → dispatchKey s = 0x06#8 →
      step s = exec (.pop ((byteAt s 0).extractLsb' 6 2) (byteAt s 1)) s) ∧
    (s.pc.toNat ≤ 254 → dispatchKey s = 0x07#8 →
      step s = exec (.prn ((byteAt s 0).extractLsb' 6 2) (byteAt s 1)) s) ∧
    (s.pc.toNat ≤ 253 → dispatchKey s = 0x22#8 →
      step s = exec (.mul ((byteAt s 0).extractLsb' 6 2) (byteAt s 1) (byteAt s 2)) s)

/-- A fetch at 256 or above halts with OutOfRange and records the program counter (R81). The nine-bit
counter that does not wrap, and the code 5, are the spec's decisions D3, D5, D6 (log entries 3 and 5). -/
def Obligations.FetchOutOfRangeHalts : Prop :=
  ∀ s : State, s.run = .running → 256 ≤ s.pc.toNat → step s = .next (haltedWith 5#3 s.pc s)

/-- An operand byte past the end of memory halts with OutOfRange(256): at 255 for every format with an
operand, at 254 for the formats with two; nothing is validated first (R44, R145, R152). That the address
255 + 1 or 254 + 2 is 256 and not 0 is the spec's decision D3 (log entry 3); the order is D7 (log
entry 6), the code and the recorded address D5 and D6 (log entry 5), the keys 0x05 and 0x06 D1 (log
entry 1), every bit 4 and count D9 and D8 (log entry 7), the operand reads of an undefined ALU opcode C1
(log entry 11). -/
def Obligations.OperandOutOfRangeHalts : Prop :=
  ∀ s : State, s.run = .running →
    (s.pc.toNat = 255 →
      (dispatchKey s ∈ [0x02#8, 0x05#8, 0x06#8, 0x07#8] ∨ (byteAt s 0).getLsbD 5 = true) →
      step s = .next (haltedWith 5#3 256#9 s)) ∧
    (s.pc.toNat = 254 → (dispatchKey s = 0x02#8 ∨ (byteAt s 0).getLsbD 5 = true) →
      step s = .next (haltedWith 5#3 256#9 s))

/-- A direct opcode with no handler halts with InvalidOpcode and records the opcode, whatever operand
bytes follow and even at 255, where none can be read (R74, R88). The code and the recorded value are
the spec's decisions D5 and D6 (log entry 5); that 5 and 6 are not in the list is D1 (log entry 1); that
bit 4 and the count make no difference is D9 and D8 (log entry 7). -/
def Obligations.UndefinedDirectOpcodeHalts : Prop :=
  ∀ s : State, s.run = .running → s.pc.toNat ≤ 255 → (byteAt s 0).getLsbD 5 = false →
    (byteAt s 0).toNat % 16 ∈ [0, 3, 4, 8, 9, 10, 11, 12, 13, 14, 15] →
    step s = .next (haltedWith 3#3 (((byteAt s 0).extractLsb' 0 4).setWidth 9) s)

/-- An ALU-flagged opcode other than MUL's, once both operand bytes can be read: an invalid operand is
reported first, A before B, else UnsupportedOperation with the opcode (R75, R86, R144, R152). That it is
UnsupportedOperation, after validation, is the spec's resolution C1 of a question its source leaves open
(U5; log entry 11). The codes and recorded values are the spec's decisions D5 and D6 (log entry 5); every
bit 4 and count is D9 and D8 (log entry 7). -/
def Obligations.UndefinedAluOpcodeHalts : Prop :=
  ∀ s : State, s.run = .running → s.pc.toNat ≤ 253 → (byteAt s 0).getLsbD 5 = true →
    (byteAt s 0).toNat % 16 ≠ 2 →
    step s = .next
      (if 8 ≤ (byteAt s 1).toNat then haltedWith 2#3 ((byteAt s 1).setWidth 9) s
       else if 8 ≤ (byteAt s 2).toNat then haltedWith 2#3 ((byteAt s 2).setWidth 9) s
       else haltedWith 4#3 (((byteAt s 0).extractLsb' 0 4).setWidth 9) s)

/-! ### The instructions: completion, result and frame -/

/-- HLT completes in every state, with any operand count: Halted, cause 1, info 0, and everything else
unchanged (R130). The code is the spec's decision D5 (log entry 5); that the program counter stays at the
HLT is its resolution C8 (U6; log entry 11); that the count does not matter is D8 (log entry 7). -/
def Obligations.HltHaltsAndChangesNothingElse : Prop :=
  ∀ (n : Count) (s : State), exec (.hlt n) s = .next (haltedWith 1#3 0#9 s)

/-- LDI with a valid register operand completes: the register holds the raw immediate, the counter
moves by 1 + n without wrapping, every other register, every byte of memory, the output and the status
are unchanged (R110). Register 7 is a register like the others. That the sum does not wrap is the spec's
decision D3 (log entry 3), that it uses n whatever the format reads is D8 (log entry 7). -/
def Obligations.LdiLoadsImmediate : Prop :=
  ∀ (n : Count) (d imm : Byte) (s : State), s.pc.toNat ≤ 255 → d.toNat ≤ 7 →
    ∃ t, exec (.ldi n d imm) s = .next t ∧
      getReg t (regIndex d) = imm ∧
      (∀ r, r ≠ regIndex d → getReg t r = getReg s r) ∧
      t.pc.toNat = s.pc.toNat + 1 + n.toNat ∧
      SameMemory s t ∧ SameStatus s t ∧ t.out = s.out

/-- PRN with a valid register operand completes: the register's value is appended to the output, the
counter moves by 1 + n, every register, every byte of memory and the status are unchanged (R111). The
output list is the spec's decision D10 (log entry 8); that the counter does not wrap is D3 (log entry 3),
that it moves by n whatever the format reads is D8 (log entry 7). -/
def Obligations.PrnEmitsRegister : Prop :=
  ∀ (n : Count) (src : Byte) (s : State), s.pc.toNat ≤ 255 → src.toNat ≤ 7 →
    ∃ t, exec (.prn n src) s = .next t ∧
      t.out = s.out ++ [getReg s (regIndex src)] ∧
      (∀ r, getReg t r = getReg s r) ∧
      t.pc.toNat = s.pc.toNat + 1 + n.toNat ∧
      SameMemory s t ∧ SameStatus s t

/-- MUL with two valid register operands completes: register A holds the product modulo 256 of the two
values before the instruction (so A = B squares it), the counter moves by 1 + n, every other register,
every byte of memory, the output and the status are unchanged (R104). Reading both before the write is
the spec's decision D19 (log entry 10); that the counter does not wrap is D3 (log entry 3), that it moves
by n whatever the format reads is D8 (log entry 7). -/
def Obligations.MulMultipliesIntoFirst : Prop :=
  ∀ (n : Count) (a b : Byte) (s : State), s.pc.toNat ≤ 255 → a.toNat ≤ 7 → b.toNat ≤ 7 →
    ∃ t, exec (.mul n a b) s = .next t ∧
      (getReg t (regIndex a)).toNat =
        (getReg s (regIndex a)).toNat * (getReg s (regIndex b)).toNat % 256 ∧
      (∀ r, r ≠ regIndex a → getReg t r = getReg s r) ∧
      t.pc.toNat = s.pc.toNat + 1 + n.toNat ∧
      SameMemory s t ∧ SameStatus s t ∧ t.out = s.out

/-- PUSH with a valid register operand completes: the stack pointer goes down by one modulo 256, the
cell at the decremented pointer holds the source register read after the decrement, every other cell,
every other register, the output and the status are unchanged and the counter moves by 1 + n (R120). The
wrap of the pointer is the spec's decision D4 (log entry 4). That PUSH R7 stores the decremented pointer is
the spec's inference from the order of the effects (N30; log entry 10). That the counter does not wrap is
D3 (log entry 3), that it moves by n whatever the format reads is D8 (log entry 7). The value read back
needs memory in its canonical form, the model's own (log entry 14), which every step keeps. -/
def Obligations.PushStoresBelowStack : Prop :=
  ∀ (n : Count) (src : Byte) (s : State), s.pc.toNat ≤ 255 → src.toNat ≤ 7 →
    ∃ t, exec (.push n src) s = .next t ∧
      (getReg t 7#3).toNat = ((getReg s 7#3).toNat + 255) % 256 ∧
      (∀ r, r ≠ 7#3 → getReg t r = getReg s r) ∧
      stackAddr (decSp s) = ((getReg s 7#3).toNat + 255) % 256 ∧
      (Memory.wf s.mem → Memory.get t.mem (stackAddr (decSp s)) =
        if regIndex src = 7#3 then getReg t 7#3 else getReg s (regIndex src)) ∧
      (∀ a, a ≠ stackAddr (decSp s) → Memory.get t.mem a = Memory.get s.mem a) ∧
      t.pc.toNat = s.pc.toNat + 1 + n.toNat ∧ SameStatus s t ∧ t.out = s.out

/-- POP with a valid register operand completes: a destination other than the stack pointer gets the
byte at the pointer and the pointer goes up by one modulo 256; POP R7 leaves the loaded byte plus one
modulo 256; every other register, every byte of memory, the output and the status are unchanged and
the counter moves by 1 + n (R121). The wrap of the pointer is the spec's decision D4 (log entry 4). What
POP R7 leaves is the spec's inference from the order of the effects (N30; log entry 10). That the counter
does not wrap is D3 (log entry 3), that it moves by n whatever the format reads is D8 (log entry 7). -/
def Obligations.PopLoadsTopOfStack : Prop :=
  ∀ (n : Count) (d : Byte) (s : State), s.pc.toNat ≤ 255 → d.toNat ≤ 7 →
    ∃ t, exec (.pop n d) s = .next t ∧
      (regIndex d ≠ 7#3 →
        getReg t (regIndex d) = Memory.get s.mem (getReg s 7#3).toNat ∧
        (getReg t 7#3).toNat = ((getReg s 7#3).toNat + 1) % 256) ∧
      (regIndex d = 7#3 →
        (getReg t 7#3).toNat = ((Memory.get s.mem (getReg s 7#3).toNat).toNat + 1) % 256) ∧
      (∀ r, r ≠ regIndex d → r ≠ 7#3 → getReg t r = getReg s r) ∧
      t.pc.toNat = s.pc.toNat + 1 + n.toNat ∧
      SameMemory s t ∧ SameStatus s t ∧ t.out = s.out

/-- Where the instructions trap: an operand byte above 7 where a register is expected halts with
InvalidRegister, records the raw byte and changes nothing else, in every state; for MUL operand A is
reported before operand B (R142, R151). The code and the recorded byte are the spec's decisions D5 and
D6 (log entry 5). -/
def Obligations.InvalidRegisterOperandHalts : Prop :=
  ∀ (n : Count) (bad : Byte) (s : State), 8 ≤ bad.toNat →
    (∀ imm, exec (.ldi n bad imm) s = .next (haltedWith 2#3 (bad.setWidth 9) s)) ∧
    exec (.push n bad) s = .next (haltedWith 2#3 (bad.setWidth 9) s) ∧
    exec (.pop n bad) s = .next (haltedWith 2#3 (bad.setWidth 9) s) ∧
    exec (.prn n bad) s = .next (haltedWith 2#3 (bad.setWidth 9) s) ∧
    (∀ b, exec (.mul n bad b) s = .next (haltedWith 2#3 (bad.setWidth 9) s)) ∧
    (∀ a : Byte, a.toNat ≤ 7 → exec (.mul n a bad) s = .next (haltedWith 2#3 (bad.setWidth 9) s))

/-! ### Halting -/

/-- Taking a halt condition writes `run`, `cause` and `info` and nothing else (R150), with the codes of
R148, which are the spec's decision D5 (log entry 5). -/
def Obligations.HaltEntryWritesThreeFields : Prop :=
  ∀ (v : PcWord) (s : State),
    raise .halt v s = haltedWith 1#3 v s ∧
    raise .invalidRegister v s = haltedWith 2#3 v s ∧
    raise .invalidOpcode v s = haltedWith 3#3 v s ∧
    raise .unsupportedOperation v s = haltedWith 4#3 v s ∧
    raise .outOfRange v s = haltedWith 5#3 v s

/-- Halted is terminal: the machine takes no step there (R153). That this is the model's fault named
`halted` is the model's form of "no step exists" (D17, log entry 9). -/
def Obligations.HaltedTakesNoStep : Prop :=
  ∀ s : State, s.run = .halted → step s = .fault .halted

/-- Every Running state has a next state: no byte value, operand, address or register value stops the
model. R11 is the spec's own inference from R10, R80 and R153; that halts are next states with a cause is
its decision D5 (log entry 5). -/
def Obligations.RunningStateAlwaysSteps : Prop :=
  ∀ s : State, s.run = .running → ∃ t, step s = .next t

/-- Halt conditions are precise: a step that ends Halted, for any reason, has changed nothing but `run`,
`cause` and `info` (R92, R150, R151). For HLT, that the program counter is among what is unchanged is the
spec's resolution C8 (U6; log entry 11). The two status fields are its decisions D5 and D6 (log entry 5). -/
def Obligations.HaltingStepChangesOnlyStatus : Prop :=
  ∀ s t : State, step s = .next t → t.run = .halted → t = haltedWith t.cause t.info s

/-- A step that leaves the machine Running moves the counter by 1 plus the operand count of the byte
fetched at the start of the step, even if the step overwrote that byte; a step that ends Halted leaves
the counter where it was (R89, R90). That the sum does not wrap, that the count is not checked, and that
HLT leaves the counter are the spec's decisions D3 and D8 and its resolution C8 (log entries 3, 7, 11). -/
def Obligations.PcAdvancesOrStays : Prop :=
  ∀ s t : State, step s = .next t →
    (t.run = .running → t.pc.toNat = s.pc.toNat + 1 + ((byteAt s 0).extractLsb' 6 2).toNat) ∧
    (t.run = .halted → t.pc = s.pc)

/-- A run ends cleanly by HLT and by nothing else (R141, R185). The code 1 is the spec's decision D5
(log entry 5). That a byte with bit 4 set or with any count is an HLT, if its key is 0x01, is D9 and D8
(log entry 7). That a counter of 256 or more fetches nothing is D3 (log entry 3). -/
def Obligations.CleanHaltOnlyByHlt : Prop :=
  ∀ s t : State, step s = .next t →
    (Clean t ↔ s.pc.toNat ≤ 255 ∧ dispatchKey s = 0x01#8)

/-! ### Whole-machine frames -/

/-- Only PUSH writes memory, and only the one cell it names (R42, R92). That the cell's address wraps
modulo 256 is the spec's decision D4 (log entry 4). -/
def Obligations.OnlyPushWritesMemory : Prop :=
  ∀ s t : State, step s = .next t → t.mem ≠ s.mem →
    ∃ n src, decode (fetchWindow s) = .ok (.push n src) ∧
      ∀ a, a ≠ stackAddr (decSp s) → Memory.get t.mem a = Memory.get s.mem a

/-- Only PRN writes the output, and it appends the value of its register (R32, D10, log entry 8). -/
def Obligations.OnlyPrnExtendsOutput : Prop :=
  ∀ s t : State, step s = .next t → t.out ≠ s.out →
    ∃ n src, decode (fetchWindow s) = .ok (.prn n src) ∧
      t.out = s.out ++ [getReg s (regIndex src)]

/-- A register that changes in a step is a destination of the instruction, or the stack pointer of a
PUSH or POP (R23, R24, R92). -/
def Obligations.OnlyDestinationsChange : Prop :=
  ∀ (s t : State) (r : RegIdx), step s = .next t → getReg t r ≠ getReg s r →
    ∃ i, decode (fetchWindow s) = .ok i ∧ r ∈ writtenRegs i

/-- The operand-count field moves the counter and does nothing else: an instruction and the same with
another count leave states that differ at most in the counter (R71, R76). That nothing checks the field
is the spec's decision D8 (log entry 7). -/
def Obligations.OperandCountOnlyMovesPc : Prop :=
  ∀ (i : Instr) (m : Count) (s t : State), exec i s = .next t →
    ∃ u, exec (i.withCount m) s = .next u ∧ u = { t with pc := u.pc }

/-- No instruction reads `cause`, `info` or the output: two Running states that differ only there step
to states that agree on registers, counter, memory and `run`; the same bytes `d` are appended to both
outputs; a step that halts writes the same status, and one that does not leaves each state the status it
had (R30, R31, R32; the three fields are the spec's decisions D5, D6, D10, log entries 5 and 8). -/
def Obligations.StatusAndOutputNeverRead : Prop :=
  ∀ (s t : State) (c : CauseCode) (v : PcWord) (o : List Byte), step s = .next t →
    ∃ (u : State) (d : List Byte), step { s with cause := c, info := v, out := o } = .next u ∧
      u.regs = t.regs ∧ u.pc = t.pc ∧ u.mem = t.mem ∧ u.run = t.run ∧
      t.out = s.out ++ d ∧ u.out = o ++ d ∧
      (t.run = .halted → u.cause = t.cause ∧ u.info = t.info) ∧
      (t.run = .running → (t.cause = s.cause ∧ t.info = s.info) ∧ u.cause = c ∧ u.info = v)

/-- A store is seen by the next fetch: when PUSH stores at the address the counter moves to, the next
instruction byte is the byte stored. R56 is the spec's own inference (D13). The address rests on the
pointer's wrap, D4 (log entry 4), the value of PUSH R7 on N30 (log entry 10), and the value read back on
memory in its canonical form, the model's own (log entry 14). -/
def Obligations.StoreSeenByNextFetch : Prop :=
  ∀ (n : Count) (src : Byte) (s t : State), Memory.wf s.mem → src.toNat ≤ 7 →
    exec (.push n src) s = .next t → t.pc.toNat = stackAddr (decSp s) →
    (fetchWindow t)[0]? = some (getReg (decSp s) (regIndex src))

/-- PUSH then POP of registers other than the stack pointer moves the value, restores the stack pointer
and leaves the value in the cell below it (R123, the spec's own inference). At the ends of its range the
pointer wraps, the spec's decision D4 (log entry 4). Memory is in its canonical form, the model's own (log
entry 14). -/
def Obligations.PushThenPopRestores : Prop :=
  ∀ (n m : Count) (src d : Byte) (s : State), Memory.wf s.mem → src.toNat ≤ 6 → d.toNat ≤ 6 →
    ∃ t u, exec (.push n src) s = .next t ∧ exec (.pop m d) t = .next u ∧
      getReg u (regIndex d) = getReg s (regIndex src) ∧
      getReg u 7#3 = getReg s 7#3 ∧
      Memory.get u.mem (((getReg s 7#3).toNat + 255) % 256) = getReg s (regIndex src)

/-! ### Memory and the ALU block -/

/-- R41: a read at 256 or above is OutOfRange of that address, not reduced; any other reads its cell. -/
def Obligations.MemReadContract : Prop :=
  ∀ (m : Memory) (a : Nat),
    (256 ≤ a → memRead m a = .error a) ∧ (a < 256 → memRead m a = .ok (Memory.get m a))

/-- A write at 256 or above is OutOfRange; any other changes its cell and nothing else (R42). That it
starts from and keeps a canonical form is about the model's own representation of memory (log entry 14,
DEDUCED), of which the spec does not speak. -/
def Obligations.MemWriteContract : Prop :=
  ∀ (m : Memory) (a : Nat) (v : Byte),
    (256 ≤ a → memWrite m a v = .error a) ∧
    (a < 256 → Memory.wf m → ∃ m', memWrite m a v = .ok m' ∧ Memory.wf m' ∧
      memRead m' a = .ok v ∧ ∀ b, b ≠ a → memRead m' b = memRead m b)

/-- R101, R103: the ADD and MUL units give the sum and the product modulo 256 of two bytes. -/
def Obligations.AluUnitsWrapModulo256 : Prop :=
  ∀ va vb : Byte,
    (aluResult .add va vb).toNat = (va.toNat + vb.toNat) % 256 ∧
    (aluResult .mul va vb).toNat = (va.toNat * vb.toNat) % 256

/-- The ALU reads both registers, writes the unit's result into the first and touches nothing else
(R100). That both reads come before the write, which matters when the registers are the same, is the
spec's decision D19 (log entry 10). -/
def Obligations.AluWritesOnlyFirstRegister : Prop :=
  ∀ (op : AluOp) (a b : RegIdx) (s : State),
    getReg (aluApply op a b s) a = aluResult op (getReg s a) (getReg s b) ∧
    (∀ r, r ≠ a → getReg (aluApply op a b s) r = getReg s r) ∧
    aluApply op a b s = { s with regs := (aluApply op a b s).regs }

/-! ### Reset, load, invariant, termination -/

/-- The reset values (R35, R170), from any state. Zero in registers 0 to 6 is the spec's decision D2
(log entry 2); `cause`, `info` and the output are D5, D6, D10 (log entries 5 and 8); that reset is a move of
the host, from any state, is D15 (log entry 13). -/
def Obligations.ResetValues : Prop :=
  ∀ s : State,
    getReg (hostReset s) 7#3 = 0xF3#8 ∧
    (∀ r : RegIdx, r ≠ 7#3 → getReg (hostReset s) r = 0#8) ∧
    (hostReset s).pc = 0#9 ∧
    (∀ a, Memory.get (hostReset s).mem a = 0#8) ∧
    (hostReset s).run = .running ∧
    (hostReset s).cause = 0#3 ∧ (hostReset s).info = 0#9 ∧ (hostReset s).out = [] ∧
    hostReset s = State.reset

/-- The invariant holds at reset (R34, R35). That `cause` and `info` exist and are zero is the spec's
decisions D5 and D6 (log entry 5); the canonical form of memory is the model's own (log entry 14). -/
def Obligations.ResetSatisfiesInvariant : Prop :=
  Inv State.reset

/-- After the load every address below the image's length holds the image's byte, every other holds the
reset value, and nothing but memory differs from reset (R172). That the load follows reset, and that an
image has at most 256 bytes, here by its type, are the spec's decisions D15 and D14 (log entry 13). -/
def Obligations.LoadPlacesImageInMemory : Prop :=
  ∀ p : Image,
    (∀ a, (h : a < p.bytes.length) → Memory.get (initWith p).mem a = p.bytes[a]) ∧
    (∀ a, p.bytes.length ≤ a → Memory.get (initWith p).mem a = 0#8) ∧
    initWith p = { State.reset with mem := (initWith p).mem }

/-- The invariant holds after the load of any image. The load and the image's size are the spec's
decisions D15 and D14 (log entry 13); that `cause` and `info` exist and are zero is D5 and D6 (log entry 5);
the canonical form of memory is the model's own (log entry 14). -/
def Obligations.LoadedMachineSatisfiesInvariant : Prop :=
  ∀ p : Image, Inv (initWith p)

/-- Every step keeps the invariant: `cause` and `info` are zero while Running and in R149's ranges once
Halted, and the counter is at most 259 (R34). The codes and ranges are the spec's decisions D5 and D6 (log
entry 5); that 5 and 6 are not in the range of cause 3 is D1 (log entry 1); that undefined ALU opcodes are
cause 4 and not cause 3 is C1 (log entry 11); the bound on the counter rests on D3 and D8 (log entries 3
and 7). The third part, that memory keeps its canonical form, is the model's own (log entry 14). -/
def Obligations.StepKeepsInvariant : Prop :=
  ∀ s t : State, Inv s → step s = .next t → Inv t

/-- The tight bound: the counter never passes 258. R28 states it as the spec's own inference; it rests on
the counter that does not wrap, D3 (log entry 3), on count 3, D8 (log entry 7), on the operand reads of
every ALU-flagged byte, C1 (log entry 11), and on D1 (log entry 1) for which bytes have an operand. -/
def Obligations.PcNeverAbove258 : Prop :=
  ∀ s t : State, s.pc.toNat ≤ 258 → step s = .next t → t.pc.toNat ≤ 258

/-- Every run ends: from every state, reachable or not, the machine is Halted within 257 steps (R183, the
spec's own inference). It rests on the counter not wrapping, the spec's decision D3 (log entry 3). -/
def Obligations.RunEndsWithin257Steps : Prop :=
  ∀ s : State, (runFor 257 s).run = .halted
end

