-- ==== Sys2Proof/Laws/Decode.lean ====
section
/-! SUPPORT. The laws of the decoder and of the instruction byte (spec/40_execution_loop.md R82,
spec/30_encoding.md R61). -/

namespace Sys2Proof

/-- The fields of an instruction byte are the fields it was built from (R61). -/
@[simp] theorem decodeFields_instructionByte (n : Count) (alu : Bool) (op : Opcode) :
    decodeFields (instructionByte n alu op) = { op := op, alu := alu, n := n } := by
  revert n alu op
  decide

/-- All that decoding one operand byte can do. -/
theorem decodeR_cases (mk : Byte → Instr) (rest : List Byte) :
    (rest = [] ∧ decodeR mk rest = .error (.noOperand 1)) ∨
    ∃ o1 tail, rest = o1 :: tail ∧ decodeR mk rest = .ok (mk o1) := by
  cases rest with
  | nil => exact .inl ⟨rfl, rfl⟩
  | cons o1 tail => exact .inr ⟨o1, tail, rfl, rfl⟩

/-- All that decoding two operand bytes can do. -/
theorem decodeTwo_cases (mk : Byte → Byte → Except Reject Instr) (rest : List Byte) :
    (rest = [] ∧ decodeTwo mk rest = .error (.noOperand 1)) ∨
    (∃ o1, rest = [o1] ∧ decodeTwo mk rest = .error (.noOperand 2)) ∨
    ∃ o1 o2 tail, rest = o1 :: o2 :: tail ∧ decodeTwo mk rest = mk o1 o2 := by
  match rest with
  | [] => exact .inl ⟨rfl, rfl⟩
  | [o1] => exact .inr (.inl ⟨o1, rfl, rfl⟩)
  | o1 :: o2 :: tail => exact .inr (.inr ⟨o1, o2, tail, rfl, rfl⟩)

end Sys2Proof
end

