-- ==== Sys2Proof/Laws/State.lean ====
section
/-! SUPPORT. One lemma per field per update of the state, true by rfl, so that no proof unfolds a
record update. -/

namespace Sys2Proof.Machine

@[simp] theorem setReg_regs (i : RegIdx) (v : Byte) (s : State) :
    (setReg i v s).regs = s.regs.set i v := rfl

@[simp] theorem setReg_pc (i : RegIdx) (v : Byte) (s : State) :
    (setReg i v s).pc = s.pc := rfl

@[simp] theorem setReg_mem (i : RegIdx) (v : Byte) (s : State) :
    (setReg i v s).mem = s.mem := rfl

@[simp] theorem setReg_run (i : RegIdx) (v : Byte) (s : State) :
    (setReg i v s).run = s.run := rfl

@[simp] theorem setReg_cause (i : RegIdx) (v : Byte) (s : State) :
    (setReg i v s).cause = s.cause := rfl

@[simp] theorem setReg_info (i : RegIdx) (v : Byte) (s : State) :
    (setReg i v s).info = s.info := rfl

@[simp] theorem setReg_out (i : RegIdx) (v : Byte) (s : State) :
    (setReg i v s).out = s.out := rfl

@[simp] theorem setMem_regs (m : Memory) (s : State) :
    (setMem m s).regs = s.regs := rfl

@[simp] theorem setMem_pc (m : Memory) (s : State) :
    (setMem m s).pc = s.pc := rfl

@[simp] theorem setMem_mem (m : Memory) (s : State) :
    (setMem m s).mem = m := rfl

@[simp] theorem setMem_run (m : Memory) (s : State) :
    (setMem m s).run = s.run := rfl

@[simp] theorem setMem_cause (m : Memory) (s : State) :
    (setMem m s).cause = s.cause := rfl

@[simp] theorem setMem_info (m : Memory) (s : State) :
    (setMem m s).info = s.info := rfl

@[simp] theorem setMem_out (m : Memory) (s : State) :
    (setMem m s).out = s.out := rfl

@[simp] theorem emit_regs (v : Byte) (s : State) :
    (emit v s).regs = s.regs := rfl

@[simp] theorem emit_pc (v : Byte) (s : State) :
    (emit v s).pc = s.pc := rfl

@[simp] theorem emit_mem (v : Byte) (s : State) :
    (emit v s).mem = s.mem := rfl

@[simp] theorem emit_run (v : Byte) (s : State) :
    (emit v s).run = s.run := rfl

@[simp] theorem emit_cause (v : Byte) (s : State) :
    (emit v s).cause = s.cause := rfl

@[simp] theorem emit_info (v : Byte) (s : State) :
    (emit v s).info = s.info := rfl

@[simp] theorem emit_out (v : Byte) (s : State) :
    (emit v s).out = s.out ++ [v] := rfl

@[simp] theorem advance_regs (n : Count) (s : State) :
    (advance n s).regs = s.regs := rfl

@[simp] theorem advance_pc (n : Count) (s : State) :
    (advance n s).pc = s.pc + 1#9 + n.setWidth 9 := rfl

@[simp] theorem advance_mem (n : Count) (s : State) :
    (advance n s).mem = s.mem := rfl

@[simp] theorem advance_run (n : Count) (s : State) :
    (advance n s).run = s.run := rfl

@[simp] theorem advance_cause (n : Count) (s : State) :
    (advance n s).cause = s.cause := rfl

@[simp] theorem advance_info (n : Count) (s : State) :
    (advance n s).info = s.info := rfl

@[simp] theorem advance_out (n : Count) (s : State) :
    (advance n s).out = s.out := rfl

@[simp] theorem raise_regs (e : Condition) (i : PcWord) (s : State) :
    (raise e i s).regs = s.regs := rfl

@[simp] theorem raise_pc (e : Condition) (i : PcWord) (s : State) :
    (raise e i s).pc = s.pc := rfl

@[simp] theorem raise_mem (e : Condition) (i : PcWord) (s : State) :
    (raise e i s).mem = s.mem := rfl

@[simp] theorem raise_run (e : Condition) (i : PcWord) (s : State) :
    (raise e i s).run = .halted := rfl

@[simp] theorem raise_cause (e : Condition) (i : PcWord) (s : State) :
    (raise e i s).cause = causeCode e := rfl

@[simp] theorem raise_info (e : Condition) (i : PcWord) (s : State) :
    (raise e i s).info = i := rfl

@[simp] theorem raise_out (e : Condition) (i : PcWord) (s : State) :
    (raise e i s).out = s.out := rfl

@[simp] theorem getReg_setMem (m : Memory) (s : State) (i : RegIdx) :
    getReg (setMem m s) i = getReg s i := rfl

@[simp] theorem getReg_emit (v : Byte) (s : State) (i : RegIdx) :
    getReg (emit v s) i = getReg s i := rfl

@[simp] theorem getReg_advance (n : Count) (s : State) (i : RegIdx) :
    getReg (advance n s) i = getReg s i := rfl

@[simp] theorem getReg_raise (e : Condition) (v : PcWord) (s : State) (i : RegIdx) :
    getReg (raise e v s) i = getReg s i := rfl

/-- A halt condition leaves the state as it was but for the three status fields (R150). -/
theorem raise_eq (e : Condition) (i : PcWord) (s : State) :
    raise e i s = { s with run := .halted, cause := causeCode e, info := i } := rfl

theorem raiseInvalidRegister_eq (b : Byte) (s : State) :
    raiseInvalidRegister b s = raise .invalidRegister (b.setWidth 9) s := rfl

theorem raiseOutOfRange_eq (a : Nat) (s : State) :
    raiseOutOfRange a s = raise .outOfRange (BitVec.ofNat 9 a) s := rfl

@[simp] theorem reset_mem : State.reset.mem = [] := rfl

@[simp] theorem reset_run : State.reset.run = .running := rfl

@[simp] theorem hostLoad_mem (p : Image) (s : State) :
    (hostLoad p s).mem = storeBytes s.mem 0 p.bytes := rfl

theorem initWith_eq (p : Image) :
    initWith p = { State.reset with mem := storeBytes [] 0 p.bytes } := rfl

end Sys2Proof.Machine
end

