-- ==== Sys2Proof/Laws/Memory.lean ====
section
/-! SUPPORT. The laws of memory (spec/20_memory.md R41, R42): a read after a write, a write leaves every
other address alone, and every memory operation keeps the canonical form. -/

namespace Sys2Proof.Machine

@[simp] theorem memSize_eq : Config.memSize = 256 := rfl

@[simp] theorem Memory.get_nil (a : Nat) : Memory.get [] a = Config.memInit := rfl

theorem Memory.get_cons (b : Nat) (v : Byte) (m : Memory) (a : Nat) :
    Memory.get ((b, v) :: m) a = if b = a then v else Memory.get m a := rfl

@[simp] theorem Memory.wf_nil : Memory.wf [] := by decide

theorem Memory.wf_tail {c : Host.Cell} {m : Memory} (h : Memory.wf (c :: m)) : Memory.wf m :=
  ⟨h.1.of_cons, fun d hd => h.2 d (List.mem_cons_of_mem c hd)⟩

/-- An address below every listed one reads as the reset value. -/
theorem Memory.get_of_lt (m : Memory) (a : Nat) (h : ∀ c ∈ m, a < c.1) :
    Memory.get m a = Config.memInit := by
  induction m with
  | nil => rfl
  | cons c m ih =>
    have hc := h c List.mem_cons_self
    rw [Memory.get, if_neg (by omega)]
    exact ih fun d hd => h d (List.mem_cons_of_mem c hd)

theorem Memory.get_put_ne (m : Memory) {a b : Nat} (v : Byte) (h : b ≠ a) :
    Memory.get (Memory.put m a v) b = Memory.get m b := by
  induction m with
  | nil =>
    rw [Memory.put]
    split
    · rfl
    · rw [Memory.get_cons, if_neg (Ne.symm h)]
  | cons c m ih =>
    rw [Memory.put]
    split
    · simp only [Memory.get, ih]
    · split
      · next hca =>
        have hcb : c.1 ≠ b := by omega
        split
        · simp only [Memory.get, if_neg hcb]
        · simp only [Memory.get, if_neg hcb, if_neg (Ne.symm h)]
      · split
        · rfl
        · rw [Memory.get_cons, if_neg (Ne.symm h)]

theorem Memory.get_put_same {m : Memory} (hm : Memory.wf m) (a : Nat) (v : Byte) :
    Memory.get (Memory.put m a v) a = v := by
  induction m with
  | nil =>
    rw [Memory.put]
    split
    · next hv => rw [hv]; rfl
    · rw [Memory.get_cons, if_pos rfl]
  | cons c m ih =>
    have hlt := List.pairwise_cons.1 hm.1
    rw [Memory.put]
    split
    · next hca =>
      rw [Memory.get, if_neg (by omega)]
      exact ih (Memory.wf_tail hm)
    · split
      · next hca =>
        split
        · next hv =>
          rw [hv]
          exact Memory.get_of_lt m a fun d hd => hca ▸ hlt.1 d hd
        · rw [Memory.get_cons, if_pos rfl]
      · split
        · next hv =>
          rw [hv]
          refine Memory.get_of_lt (c :: m) a fun d hd => ?_
          rcases List.mem_cons.1 hd with rfl | hd
          · omega
          · have := hlt.1 d hd
            omega
        · rw [Memory.get_cons, if_pos rfl]

/-- The cells of a memory after a write: old cells and the one written. -/
theorem Memory.mem_put {m : Memory} {a : Nat} {v : Byte} {c : Host.Cell}
    (h : c ∈ Memory.put m a v) : c ∈ m ∨ (c = (a, v) ∧ v ≠ Config.memInit) := by
  induction m with
  | nil =>
    rw [Memory.put] at h
    split at h
    · exact absurd h List.not_mem_nil
    · next hv => exact .inr ⟨List.mem_singleton.1 h, hv⟩
  | cons d m ih =>
    rw [Memory.put] at h
    split at h
    · rcases List.mem_cons.1 h with rfl | h
      · exact .inl List.mem_cons_self
      · exact (ih h).imp_left (List.mem_cons_of_mem d)
    · split at h
      · split at h
        · exact .inl (List.mem_cons_of_mem d h)
        · next hv =>
          rcases List.mem_cons.1 h with rfl | h
          · exact .inr ⟨rfl, hv⟩
          · exact .inl (List.mem_cons_of_mem d h)
      · split at h
        · exact .inl h
        · next hv =>
          rcases List.mem_cons.1 h with rfl | h
          · exact .inr ⟨rfl, hv⟩
          · exact .inl h

theorem Memory.put_pairwise {m : Memory} (hm : m.Pairwise (fun c d => c.1 < d.1)) (a : Nat)
    (v : Byte) : (Memory.put m a v).Pairwise (fun c d => c.1 < d.1) := by
  induction m with
  | nil =>
    rw [Memory.put]
    split
    · exact List.Pairwise.nil
    · exact List.pairwise_singleton _ _
  | cons c m ih =>
    obtain ⟨hlt, hm'⟩ := List.pairwise_cons.1 hm
    rw [Memory.put]
    split
    · next hca =>
      refine List.pairwise_cons.2 ⟨fun d hd => ?_, ih hm'⟩
      rcases Memory.mem_put hd with hd | ⟨rfl, -⟩
      · exact hlt d hd
      · exact hca
    · split
      · next hca =>
        split
        · exact hm'
        · exact List.pairwise_cons.2 ⟨fun d hd => hca ▸ hlt d hd, hm'⟩
      · split
        · exact hm
        · refine List.pairwise_cons.2 ⟨fun d hd => ?_, hm⟩
          rcases List.mem_cons.1 hd with rfl | hd
          · show a < d.1
            omega
          · have := hlt d hd
            show a < d.1
            omega

theorem Memory.put_wf {m : Memory} (hm : Memory.wf m) {a : Nat} (ha : a < 256) (v : Byte) :
    Memory.wf (Memory.put m a v) := by
  refine ⟨Memory.put_pairwise hm.1 a v, fun c hc => ?_⟩
  rcases Memory.mem_put hc with hc | ⟨rfl, hv⟩
  · exact hm.2 c hc
  · exact ⟨ha, hv⟩

/-- All a memory read can do (R41). -/
theorem memRead_eq (m : Memory) (a : Nat) :
    memRead m a = if 256 ≤ a then .error a else .ok (Memory.get m a) := rfl

theorem memRead_of_lt (m : Memory) {a : Nat} (h : a < 256) :
    memRead m a = .ok (Memory.get m a) := by
  rw [memRead_eq, if_neg (by omega)]

theorem memRead_of_ge (m : Memory) {a : Nat} (h : 256 ≤ a) : memRead m a = .error a := by
  rw [memRead_eq, if_pos h]

/-- All a memory write can do (R42). -/
theorem memWrite_eq (m : Memory) (a : Nat) (v : Byte) :
    memWrite m a v = if 256 ≤ a then .error a else .ok (Memory.put m a v) := rfl

theorem memWrite_of_lt (m : Memory) {a : Nat} (v : Byte) (h : a < 256) :
    memWrite m a v = .ok (Memory.put m a v) := by
  rw [memWrite_eq, if_neg (by omega)]

/-- A write of one byte that lands keeps the canonical form. -/
theorem memWrite_wf {m m' : Memory} (hm : Memory.wf m) {a : Nat} {v : Byte}
    (h : memWrite m a v = .ok m') : Memory.wf m' := by
  rw [memWrite_eq] at h
  split at h
  · cases h
  · next ha =>
    cases h
    exact Memory.put_wf hm (by omega) v

theorem storeBytes_wf {m : Memory} (hm : Memory.wf m) (a : Nat) (bs : List Byte) :
    Memory.wf (storeBytes m a bs) := by
  induction bs generalizing m a with
  | nil => exact hm
  | cons b bs ih =>
    rw [storeBytes]
    refine ih ?_ (a + 1)
    split
    · exact hm
    · next ha => exact Memory.put_wf hm (by rw [memSize_eq] at ha; omega) b

/-- Storing at ascending addresses leaves every lower address alone. -/
theorem storeBytes_get_lt (m : Memory) (a : Nat) (bs : List Byte) {x : Nat} (h : x < a) :
    Memory.get (storeBytes m a bs) x = Memory.get m x := by
  induction bs generalizing m a with
  | nil => rfl
  | cons b bs ih =>
    rw [storeBytes, ih _ (a + 1) (by omega)]
    split
    · rfl
    · exact Memory.get_put_ne m b (by omega)

/-- Storing leaves every address at or beyond the end alone. -/
theorem storeBytes_get_ge (m : Memory) (a : Nat) (bs : List Byte) {x : Nat}
    (h : a + bs.length ≤ x) : Memory.get (storeBytes m a bs) x = Memory.get m x := by
  induction bs generalizing m a with
  | nil => rfl
  | cons b bs ih =>
    rw [List.length_cons] at h
    rw [storeBytes, ih _ (a + 1) (by omega)]
    split
    · rfl
    · exact Memory.get_put_ne m b (by omega)

end Sys2Proof.Machine
end

