-- ==== Sys2Proof/Laws/Operands.lean ====
section
/-! SUPPORT. What the operand check and the byte arithmetic say in numbers (spec/40_execution_loop.md
R84, spec/41_alu.md R105). -/

namespace Sys2Proof.Machine

/-- The bit test of R84 is the range test of R68. -/
theorem verifyRegister_eq (b : Byte) : verifyRegister b = registerByteOk b := by
  revert b
  decide

theorem verifyRegister_iff (b : Byte) : verifyRegister b = true ↔ b.toNat ≤ 7 := by
  rw [verifyRegister_eq]
  exact decide_eq_true_iff

theorem verifyRegister_false_iff (b : Byte) : verifyRegister b = false ↔ 8 ≤ b.toNat := by
  rw [← Bool.not_eq_true, verifyRegister_iff]
  omega

theorem regIndex_toNat (b : Byte) : (regIndex b).toNat = b.toNat % 8 := by
  simp [regIndex, BitVec.extractLsb'_toNat]

theorem addByte_toNat (va vb : Byte) : (addByte va vb).toNat = (va.toNat + vb.toNat) % 256 :=
  BitVec.toNat_ofNat _ _

theorem mulByte_toNat (va vb : Byte) : (mulByte va vb).toNat = (va.toNat * vb.toNat) % 256 :=
  BitVec.toNat_ofNat _ _

theorem spDec_toNat (v : Byte) : (spDec v).toNat = (v.toNat + 255) % 256 := by
  rw [spDec, BitVec.toNat_sub]
  simp [Nat.add_comm]

theorem spInc_toNat (v : Byte) : (spInc v).toNat = (v.toNat + 1) % 256 := by
  simp [spInc, BitVec.toNat_add]

/-- A pop's increment undoes a push's decrement. -/
@[simp] theorem spInc_spDec (v : Byte) : spInc (spDec v) = v := by
  simp [spInc, spDec]

end Sys2Proof.Machine
end

