-- ==== Sys2Proof/Laws/Registers.lean ====
section
/-! SUPPORT. The laws of the Register File: a read after a write gives the value written, and a write
leaves every other register alone (spec/10_state.md R25). -/

namespace Sys2Proof.Machine

theorem regIdx_cases (i : RegIdx) :
    i = 0#3 ∨ i = 1#3 ∨ i = 2#3 ∨ i = 3#3 ∨ i = 4#3 ∨ i = 5#3 ∨ i = 6#3 ∨ i = 7#3 := by
  revert i
  decide

@[simp] theorem Regs.get_set_same (r : Regs) (i : RegIdx) (v : Byte) : (r.set i v).get i = v := by
  rcases regIdx_cases i with rfl | rfl | rfl | rfl | rfl | rfl | rfl | rfl <;> rfl

theorem Regs.get_set_ne (r : Regs) {i j : RegIdx} (v : Byte) (h : j ≠ i) :
    (r.set i v).get j = r.get j := by
  rcases regIdx_cases i with rfl | rfl | rfl | rfl | rfl | rfl | rfl | rfl <;>
    rcases regIdx_cases j with rfl | rfl | rfl | rfl | rfl | rfl | rfl | rfl <;>
    first
      | rfl
      | exact absurd rfl h

@[simp] theorem getReg_setReg_same (i : RegIdx) (v : Byte) (s : State) :
    getReg (setReg i v s) i = v :=
  Regs.get_set_same s.regs i v

theorem getReg_setReg_ne {i j : RegIdx} (v : Byte) (s : State) (h : j ≠ i) :
    getReg (setReg i v s) j = getReg s j :=
  Regs.get_set_ne s.regs v h

theorem getReg_setReg (i j : RegIdx) (v : Byte) (s : State) :
    getReg (setReg i v s) j = if j = i then v else getReg s j := by
  split
  · next h => subst h; exact getReg_setReg_same j v s
  · next h => exact getReg_setReg_ne v s h

/-- PUSH's decrement writes the stack pointer and nothing else. -/
theorem decSp_eq (s : State) :
    decSp s = setReg Config.spIndex (spDec (getReg s Config.spIndex)) s := rfl

/-- POP's increment writes the stack pointer and nothing else. -/
theorem incSp_eq (s : State) :
    incSp s = setReg Config.spIndex (spInc (getReg s Config.spIndex)) s := rfl

/-- The ALU writes register `a` and nothing else (R100). -/
theorem aluApply_eq (op : AluOp) (a b : RegIdx) (s : State) :
    aluApply op a b s = setReg a (aluResult op (getReg s a) (getReg s b)) s := rfl

end Sys2Proof.Machine
end

