-- ==== Sys2Proof/Laws/Exec.lean ====
section
/-! SUPPORT. One lemma per meaning that says everything it can do: its halt condition when a register
operand is invalid, its effect otherwise. -/

namespace Sys2Proof.Machine

/-- A stack access is never out of range (spec/20_memory.md R45). -/
theorem stackAddr_lt (s : State) : stackAddr s < 256 :=
  (getReg s Config.spIndex).isLt

theorem execHlt_eq (n : Count) (s : State) : execHlt n s = .next (raise .halt 0#9 s) := rfl

theorem execLdi_eq (n : Count) (d imm : Byte) (s : State) :
    execLdi n d imm s = .next (if verifyRegister d
      then advance n (setReg (regIndex d) imm s) else raiseInvalidRegister d s) := by
  rw [execLdi]
  split <;> rfl

theorem execPrn_eq (n : Count) (src : Byte) (s : State) :
    execPrn n src s = .next (if verifyRegister src
      then advance n (emit (getReg s (regIndex src)) s) else raiseInvalidRegister src s) := by
  rw [execPrn]
  split <;> rfl

/-- The state a PUSH of a valid register leaves: the store's address and value are both taken after
the decrement. -/
theorem execPush_eq (n : Count) (src : Byte) (s : State) :
    execPush n src s = .next (if verifyRegister src
      then advance n (setMem (Memory.put s.mem (stackAddr (decSp s))
        (getReg (decSp s) (regIndex src))) (decSp s))
      else raiseInvalidRegister src s) := by
  rw [execPush, memWrite_of_lt _ _ (stackAddr_lt _)]
  split <;> rfl

/-- The state a POP into a valid register leaves: the increment acts after the load. -/
theorem execPop_eq (n : Count) (d : Byte) (s : State) :
    execPop n d s = .next (if verifyRegister d
      then advance n (incSp (setReg (regIndex d) (Memory.get s.mem (stackAddr s)) s))
      else raiseInvalidRegister d s) := by
  rw [execPop, memRead_of_lt _ (stackAddr_lt _)]
  split <;> rfl

theorem execMul_eq (n : Count) (a b : Byte) (s : State) :
    execMul n a b s = .next (if verifyRegister a = false then raiseInvalidRegister a s
      else if verifyRegister b = false then raiseInvalidRegister b s
      else advance n (aluApply .mul (regIndex a) (regIndex b) s)) := by
  rw [execMul]
  split
  · rfl
  · split <;> rfl

/-! ### The effect on valid operands -/

theorem execLdi_valid {d : Byte} (h : verifyRegister d = true) (n : Count) (imm : Byte)
    (s : State) : execLdi n d imm s = .next (advance n (setReg (regIndex d) imm s)) := by
  rw [execLdi_eq, if_pos h]

theorem execPrn_valid {src : Byte} (h : verifyRegister src = true) (n : Count) (s : State) :
    execPrn n src s = .next (advance n (emit (getReg s (regIndex src)) s)) := by
  rw [execPrn_eq, if_pos h]

theorem execPush_valid {src : Byte} (h : verifyRegister src = true) (n : Count) (s : State) :
    execPush n src s = .next (advance n (setMem (Memory.put s.mem (stackAddr (decSp s))
      (getReg (decSp s) (regIndex src))) (decSp s))) := by
  rw [execPush_eq, if_pos h]

theorem execPop_valid {d : Byte} (h : verifyRegister d = true) (n : Count) (s : State) :
    execPop n d s = .next (advance n (incSp (setReg (regIndex d)
      (Memory.get s.mem (stackAddr s)) s))) := by
  rw [execPop_eq, if_pos h]

theorem execMul_valid {a b : Byte} (ha : verifyRegister a = true) (hb : verifyRegister b = true)
    (n : Count) (s : State) :
    execMul n a b s = .next (advance n (aluApply .mul (regIndex a) (regIndex b) s)) := by
  rw [execMul_eq, if_neg (by simp [ha]), if_neg (by simp [hb])]

/-- The advance on naturals, from a counter that fetched: no wrap at 256 (spec/10_state.md R26). -/
theorem advance_pc_toNat (n : Count) (s : State) (h : s.pc.toNat ≤ 255) :
    (advance n s).pc.toNat = s.pc.toNat + 1 + n.toNat := by
  have := n.isLt
  simp [BitVec.toNat_add]
  omega

end Sys2Proof.Machine
end

