-- ==== Sys2Proof/Laws/PerInstr.lean ====
section
/-! SUPPORT. Statements about every instruction as syntax, one lemma per constructor: the length of
its encoding, the fields of its instruction byte, and what well-formedness says. -/

namespace Sys2Proof.Laws.EncodeLength

/-- The encoding has one byte and the operand bytes of the format (spec/30_encoding.md R60, R70). -/
def Statement (i : Instr) : Prop := (encode i).length = 1 + i.operandBytes

theorem hlt (n : Count) : Statement (.hlt n) := rfl
theorem ldi (n : Count) (d imm : Byte) : Statement (.ldi n d imm) := rfl
theorem push (n : Count) (src : Byte) : Statement (.push n src) := rfl
theorem pop (n : Count) (d : Byte) : Statement (.pop n d) := rfl
theorem prn (n : Count) (src : Byte) : Statement (.prn n src) := rfl
theorem mul (n : Count) (a b : Byte) : Statement (.mul n a b) := rfl

end Sys2Proof.Laws.EncodeLength

namespace Sys2Proof.Laws.FirstByteFields

/-- The instruction byte carries the instruction's count, and bit 4 is zero (spec/30_encoding.md R61,
R76). -/
def Statement (i : Instr) : Prop :=
  (decodeFields (firstByte i)).n = i.count ∧ (firstByte i).getLsbD 4 = false

theorem instructionByte_bit4 (n : Count) (alu : Bool) (op : Opcode) :
    (instructionByte n alu op).getLsbD 4 = false := by
  revert n alu op
  decide

theorem hlt (n : Count) : Statement (.hlt n) :=
  ⟨by simp [firstByte, Instr.count], instructionByte_bit4 _ _ _⟩
theorem ldi (n : Count) (d imm : Byte) : Statement (.ldi n d imm) :=
  ⟨by simp [firstByte, Instr.count], instructionByte_bit4 _ _ _⟩
theorem push (n : Count) (src : Byte) : Statement (.push n src) :=
  ⟨by simp [firstByte, Instr.count], instructionByte_bit4 _ _ _⟩
theorem pop (n : Count) (d : Byte) : Statement (.pop n d) :=
  ⟨by simp [firstByte, Instr.count], instructionByte_bit4 _ _ _⟩
theorem prn (n : Count) (src : Byte) : Statement (.prn n src) :=
  ⟨by simp [firstByte, Instr.count], instructionByte_bit4 _ _ _⟩
theorem mul (n : Count) (a b : Byte) : Statement (.mul n a b) :=
  ⟨by simp [firstByte, Instr.count], instructionByte_bit4 _ _ _⟩

end Sys2Proof.Laws.FirstByteFields

namespace Sys2Proof.Laws.WfIsRegisterBytes

/-- An instruction is well-formed exactly when the machine's own check passes on each of its
register-operand bytes (spec/30_encoding.md R68, spec/40_execution_loop.md R84). -/
def Statement (i : Instr) : Prop :=
  i.wf = true ↔ ∀ b ∈ i.registerBytes, Machine.verifyRegister b = true

theorem hlt (n : Count) : Statement (.hlt n) := by
  simp [Statement, Instr.wf, Instr.registerBytes]
theorem ldi (n : Count) (d imm : Byte) : Statement (.ldi n d imm) := by
  simp [Statement, Instr.wf, Instr.registerBytes, Machine.verifyRegister_eq]
theorem push (n : Count) (src : Byte) : Statement (.push n src) := by
  simp [Statement, Instr.wf, Instr.registerBytes, Machine.verifyRegister_eq]
theorem pop (n : Count) (d : Byte) : Statement (.pop n d) := by
  simp [Statement, Instr.wf, Instr.registerBytes, Machine.verifyRegister_eq]
theorem prn (n : Count) (src : Byte) : Statement (.prn n src) := by
  simp [Statement, Instr.wf, Instr.registerBytes, Machine.verifyRegister_eq]
theorem mul (n : Count) (a b : Byte) : Statement (.mul n a b) := by
  simp [Statement, Instr.wf, Instr.registerBytes, Machine.verifyRegister_eq]

end Sys2Proof.Laws.WfIsRegisterBytes
end

