-- ==== Sys2Proof/Laws/Step.lean ====
section
/-! SUPPORT. What the fetch yields and the inversion of one step: a step that answers a next state
either ran an instruction or took the halt condition of bytes that are none. -/

namespace Sys2Proof.Machine

/-- Past the end of memory there is nothing to fetch (spec/40_execution_loop.md R81). -/
theorem fetchWindow_of_ge (s : State) (h : 256 ≤ s.pc.toNat) : fetchWindow s = [] := by
  simp [fetchWindow, bytesFrom, memRead_of_ge s.mem h]

theorem fetchWindow_255 (s : State) (h : s.pc.toNat = 255) :
    fetchWindow s = [Memory.get s.mem 255] := by
  simp [fetchWindow, bytesFrom, h, memRead_eq]

theorem fetchWindow_254 (s : State) (h : s.pc.toNat = 254) :
    fetchWindow s = [Memory.get s.mem 254, Memory.get s.mem 255] := by
  simp [fetchWindow, bytesFrom, h, memRead_eq]

theorem fetchWindow_of_le (s : State) (h : s.pc.toNat ≤ 253) :
    fetchWindow s = [Memory.get s.mem s.pc.toNat, Memory.get s.mem (s.pc.toNat + 1),
      Memory.get s.mem (s.pc.toNat + 2)] := by
  have h0 : s.pc.toNat < 256 := by omega
  have h1 : s.pc.toNat + 1 < 256 := by omega
  have h2 : s.pc.toNat + 1 + 1 < 256 := by omega
  simp [fetchWindow, bytesFrom, memRead_of_lt, h0, h1, h2]

/-- The one inversion of a step. -/
theorem step_cases {s t : State} (h : step s = .next t) :
    s.run = .running ∧
      ((∃ i, decode (fetchWindow s) = .ok i ∧ exec i s = .next t) ∨
        ∃ r, decode (fetchWindow s) = .error r ∧ t = takeReject r s) := by
  cases hr : s.run with
  | halted => simp [step, hr] at h
  | running =>
    cases hd : decode (fetchWindow s) with
    | ok i => exact ⟨rfl, .inl ⟨i, rfl, by simpa [step, hr, hd] using h⟩⟩
    | error r =>
      refine ⟨rfl, .inr ⟨r, rfl, ?_⟩⟩
      simp only [step, hr, hd] at h
      injection h with h
      exact h.symm

/-- A rejection only takes a halt condition: it changes the three status fields and nothing else. -/
theorem takeReject_raises (r : Reject) (s : State) :
    ∃ e i, e ≠ .halt ∧ takeReject r s = raise e i s := by
  cases r with
  | noByte => exact ⟨.outOfRange, _, by decide, rfl⟩
  | noOperand k => exact ⟨.outOfRange, _, by decide, rfl⟩
  | undefinedDirect op => exact ⟨.invalidOpcode, _, by decide, rfl⟩
  | undefinedAlu op a b =>
    rw [takeReject]
    split
    · exact ⟨.invalidRegister, _, by decide, rfl⟩
    · split
      · exact ⟨.invalidRegister, _, by decide, rfl⟩
      · exact ⟨.unsupportedOperation, _, by decide, rfl⟩

/-- What `zext_9` of an operand byte that fails the check can be (spec/60_exceptions.md R149). -/
theorem invalid_info_range (b : Byte) (h : verifyRegister b = false) :
    8 ≤ (b.setWidth 9).toNat ∧ (b.setWidth 9).toNat ≤ 255 := by
  have hb := (verifyRegister_false_iff b).1 h
  have := b.isLt
  simp
  omega

/-- The one inversion of an instruction's effect: it takes a halt condition, which is HLT's own or
InvalidRegister, or it completes as an advance of a state with the same counter and status whose memory
is still canonical. -/
theorem exec_cases {i : Instr} {s t : State} (h : exec i s = .next t) :
    (∃ n, i = .hlt n ∧ t = raise .halt 0#9 s) ∨
    (∃ b, b ∈ i.registerBytes ∧ verifyRegister b = false ∧ t = raiseInvalidRegister b s) ∨
    ∃ u, t = advance i.count u ∧ u.pc = s.pc ∧ u.run = s.run ∧ u.cause = s.cause ∧
      u.info = s.info ∧ (Memory.wf s.mem → Memory.wf u.mem) := by
  cases i with
  | hlt n => cases h; exact .inl ⟨n, rfl, rfl⟩
  | ldi n d imm =>
    rw [exec, execLdi_eq] at h
    injection h with h
    subst h
    split
    · exact .inr (.inr ⟨_, rfl, rfl, rfl, rfl, rfl, id⟩)
    · next hv => exact .inr (.inl ⟨d, List.mem_singleton_self d, by simpa using hv, rfl⟩)
  | push n src =>
    rw [exec, execPush_eq] at h
    injection h with h
    subst h
    split
    · exact .inr (.inr ⟨_, rfl, rfl, rfl, rfl, rfl, fun hm => Memory.put_wf hm (stackAddr_lt _) _⟩)
    · next hv => exact .inr (.inl ⟨src, List.mem_singleton_self src, by simpa using hv, rfl⟩)
  | pop n d =>
    rw [exec, execPop_eq] at h
    injection h with h
    subst h
    split
    · exact .inr (.inr ⟨_, rfl, rfl, rfl, rfl, rfl, id⟩)
    · next hv => exact .inr (.inl ⟨d, List.mem_singleton_self d, by simpa using hv, rfl⟩)
  | prn n src =>
    rw [exec, execPrn_eq] at h
    injection h with h
    subst h
    split
    · exact .inr (.inr ⟨_, rfl, rfl, rfl, rfl, rfl, id⟩)
    · next hv => exact .inr (.inl ⟨src, List.mem_singleton_self src, by simpa using hv, rfl⟩)
  | mul n a b =>
    rw [exec, execMul_eq] at h
    injection h with h
    subst h
    split
    · next hv => exact .inr (.inl ⟨a, List.mem_cons_self, hv, rfl⟩)
    · split
      · next hv =>
        exact .inr (.inl ⟨b, List.mem_cons_of_mem a (List.mem_singleton_self b), hv, rfl⟩)
      · exact .inr (.inr ⟨_, rfl, rfl, rfl, rfl, rfl, id⟩)

end Sys2Proof.Machine
end

