-- ==== Sys2Proof/Tests/Slice0.lean ====
section
/-! SUPPORT. The model's own tests: the WellFormed smoke tests, decodings written out from the spec's
encodings, one-step vectors of spec/95_test_vectors.md, and for every statement with hypotheses a
witness that meets them. -/

namespace Sys2Proof.Tests

open Sys2Proof.Machine Sys2Proof.Safety

/-- The state of the step vectors: reset, but for the counter, memory and registers given. -/
def at_ (pc : PcWord) (mem : Memory) (regs : Regs := State.reset.regs) : State :=
  { State.reset with pc := pc, mem := mem, regs := regs }

/-- The reset registers with R0 and R1 given. -/
def r01 (x0 x1 : Byte) : Regs :=
  { State.reset.regs with x0 := x0, x1 := x1 }

/-- The next state of an outcome that has one. -/
def next? : Host.Outcome State Fault Refusal → Option State
  | .next t => some t
  | .fault _ => none
  | .refused _ => none

/-- Halted with the given cause and info and the rest unchanged (R150). -/
def haltsWith (c : CauseCode) (v : PcWord) (s : State) : Bool :=
  next? (step s) == some { s with run := .halted, cause := c, info := v }

/-! ### WellFormed: each check refuses an ill-formed term -/

theorem test_wf_ldi : (Instr.ldi 2#2 7#8 0xFF#8).wf = true ∧ (Instr.ldi 2#2 8#8 0#8).wf = false := by
  decide

theorem test_wf_push : (Instr.push 1#2 7#8).wf = true ∧ (Instr.push 1#2 0x80#8).wf = false := by
  decide

theorem test_wf_pop : (Instr.pop 1#2 0#8).wf = true ∧ (Instr.pop 1#2 0x10#8).wf = false := by
  decide

theorem test_wf_prn : (Instr.prn 3#2 7#8).wf = true ∧ (Instr.prn 1#2 0xFF#8).wf = false := by
  decide

theorem test_wf_mul : (Instr.mul 2#2 7#8 7#8).wf = true ∧ (Instr.mul 2#2 8#8 0#8).wf = false ∧
    (Instr.mul 2#2 0#8 8#8).wf = false := by
  decide

/-! ### Decoding: words written out from R72, R73 (the canonical bytes) and R64 -/

theorem test_decode_hlt : decode [0b00000001#8] = .ok (.hlt 0#2) := rfl

theorem test_decode_ldi : decode [0b10000010#8, 0b00000011#8, 0x77#8] =
    .ok (.ldi 2#2 3#8 0x77#8) := rfl

theorem test_decode_push : decode [0b01000101#8, 0b00000111#8] = .ok (.push 1#2 7#8) := rfl

theorem test_decode_pop : decode [0b01000110#8, 0b00000001#8] = .ok (.pop 1#2 1#8) := rfl

theorem test_decode_prn : decode [0b11010111#8, 0b00000111#8] = .ok (.prn 3#2 7#8) := rfl

theorem test_decode_mul : decode [0b10100010#8, 0b00000100#8, 0b00000101#8] =
    .ok (.mul 2#2 4#8 5#8) := rfl

theorem test_decode_too_short : decode [] = .error .noByte ∧
    decode [0x45#8] = .error (.noOperand 1) ∧ decode [0x82#8, 0#8] = .error (.noOperand 2) :=
  ⟨rfl, rfl, rfl⟩

/-- The opcode table's match words, canonical bytes and the host's numbering of bits. -/
theorem test_decodeTableWord : decodeTableWord 8 0x01 = some (.hlt 0#2) ∧
    decodeTableWord 24 0x2A0382 = some (.ldi 2#2 3#8 0x2A#8) ∧
    decodeTableWord 8 0x45 = some (.push 1#2 0#8) ∧ decodeTableWord 16 0x0146 = some (.pop 1#2 1#8) ∧
    decodeTableWord 8 0x07 = some (.prn 0#2 0#8) ∧
    decodeTableWord 24 0x0504A2 = some (.mul 2#2 4#8 5#8) ∧ decodeTableWord 8 0x00 = none := by
  decide

theorem test_withFetchWord : next? (step (State.reset.withFetchWord 24 0x2A0082)) =
    some { State.reset.withFetchWord 24 0x2A0082 with regs := r01 0x2A#8 0#8, pc := 3#9 } := by
  decide

/-! ### One step: vectors of 95_test_vectors.md -/

/-- V10. -/
theorem test_mul_42 : (next? (step (at_ 0#9 [(0, 0xA2#8), (2, 1#8)] (r01 6#8 7#8)))).map
    (fun t => (getReg t 0#3, getReg t 1#3, t.pc)) = some (42#8, 7#8, 3#9) := by
  decide

/-- V12: the same register twice, 16 * 16 mod 256. -/
theorem test_mul_square_wraps :
    (next? (step (at_ 0#9 [(0, 0xA2#8)] (r01 16#8 0#8)))).map (fun t => getReg t 0#3) =
      some 0#8 := by
  decide

/-- V31. -/
theorem test_ldi_stack_pointer : (next? (step (at_ 0#9 [(0, 0x82#8), (1, 7#8), (2, 0x80#8)]))).map
    (fun t => (getReg t 7#3, t.pc)) = some (0x80#8, 3#9) := by
  decide

/-- V9: LDI with n = 0 advances by one. -/
theorem test_ldi_short_count : (next? (step (at_ 0#9 [(0, 0x02#8), (1, 1#8), (2, 0x47#8)]))).map
    (fun t => (getReg t 1#3, t.pc)) = some (0x47#8, 1#9) := by
  decide

/-- V7: PRN with n = 3. -/
theorem test_prn_count_three : (next? (step (at_ 0#9 [(0, 0xC7#8), (1, 7#8)]))).map
    (fun t => (t.out, t.pc)) = some ([243#8], 4#9) := by
  decide

/-- V44: the counter passes the end of memory and does not wrap. -/
theorem test_prn_past_end : (next? (step (at_ 254#9 [(254, 0xC7#8)]))).map
    (fun t => (t.out, t.pc)) = some ([0#8], 258#9) := by
  decide

/-- V47: PUSH R7 stores the decremented pointer. -/
theorem test_push_stack_pointer : (next? (step (at_ 0#9 [(0, 0x45#8), (1, 7#8)]))).map
    (fun t => (getReg t 7#3, Memory.get t.mem 0xF2, t.pc)) = some (0xF2#8, 0xF2#8, 2#9) := by
  decide

/-- V49: the pointer wraps. -/
theorem test_push_wraps :
    (next? (step (at_ 0#9 [(0, 0x45#8)] { r01 0xAB#8 0#8 with x7 := 0#8 }))).map
      (fun t => (getReg t 7#3, Memory.get t.mem 0xFF)) = some (0xFF#8, 0xAB#8) := by
  decide

/-- V48: POP R7 increments the loaded value. -/
theorem test_pop_stack_pointer :
    (next? (step (at_ 0#9 [(0, 0x46#8), (1, 7#8), (0xF2, 0x40#8)]
      { State.reset.regs with x7 := 0xF2#8 }))).map (fun t => getReg t 7#3) = some 0x41#8 := by
  decide

/-- V50: the pointer wraps. -/
theorem test_pop_wraps :
    (next? (step (at_ 0#9 [(0, 0x46#8), (1, 1#8), (0xFF, 0xAB#8)]
      { State.reset.regs with x7 := 0xFF#8 }))).map (fun t => (getReg t 1#3, getReg t 7#3)) =
      some (0xAB#8, 0#8) := by
  decide

/-- V8 and V58. -/
theorem test_hlt : haltsWith 1#3 0#9 (at_ 0#9 [(0, 0xC1#8)]) = true ∧
    haltsWith 1#3 0#9 (at_ 255#9 [(255, 0x01#8)]) = true := by
  decide

/-- V18, V19, V33, V41, V52, V53: InvalidRegister. -/
theorem test_invalid_register :
    haltsWith 2#3 16#9 (at_ 0#9 [(0, 0xA2#8), (1, 0x10#8), (2, 0x20#8)]) = true ∧
    haltsWith 2#3 8#9 (at_ 0#9 [(0, 0xA2#8), (2, 0x08#8)]) = true ∧
    haltsWith 2#3 8#9 (at_ 0#9 [(0, 0x82#8), (1, 0x08#8), (2, 1#8)]) = true ∧
    haltsWith 2#3 32#9 (at_ 0#9 [(0, 0x47#8), (1, 0x20#8)]) = true ∧
    haltsWith 2#3 9#9 (at_ 0#9 [(0, 0x45#8), (1, 0x09#8)]) = true ∧
    haltsWith 2#3 128#9 (at_ 0#9 [(0, 0x46#8), (1, 0x80#8)]) = true := by
  decide

/-- V2, V3, V20, V21, V22: undefined opcodes of both tables. -/
theorem test_undefined_opcode :
    haltsWith 3#3 0#9 (at_ 0#9 [(0, 0xC0#8)]) = true ∧
    haltsWith 3#3 0#9 (at_ 0#9 [(0, 0x10#8)]) = true ∧
    haltsWith 4#3 0#9 (at_ 0#9 [(0, 0xA0#8), (2, 1#8)] (r01 1#8 2#8)) = true ∧
    haltsWith 2#3 8#9 (at_ 0#9 [(0, 0xA0#8), (2, 8#8)]) = true ∧
    haltsWith 4#3 15#9 (at_ 0#9 [(0, 0x2F#8), (1, 7#8), (2, 7#8)]) = true := by
  decide

/-- V23, V36, V37, V54, V59: OutOfRange wins over InvalidRegister. -/
theorem test_out_of_range :
    haltsWith 5#3 256#9 (at_ 254#9 [(254, 0xA2#8), (255, 9#8)]) = true ∧
    haltsWith 5#3 256#9 (at_ 254#9 [(254, 0x82#8), (255, 0x0A#8)]) = true ∧
    haltsWith 5#3 256#9 (at_ 255#9 [(255, 0x82#8)]) = true ∧
    haltsWith 5#3 256#9 (at_ 255#9 [(255, 0x45#8)]) = true ∧
    haltsWith 5#3 256#9 (at_ 256#9 []) = true := by
  decide

/-- V27 and V13: the ALU units alone. -/
theorem test_alu_units : aluResult .add 255#8 255#8 = 254#8 ∧ aluResult .mul 200#8 3#8 = 88#8 := by
  decide

/-! ### Memory: the canonical form at its edges -/

theorem test_put_canonical : Memory.put [(3, 1#8), (7, 2#8)] 5 9#8 = [(3, 1#8), (5, 9#8), (7, 2#8)] ∧
    Memory.put [(3, 1#8), (7, 2#8)] 3 0#8 = [(7, 2#8)] ∧ Memory.put [] 4 0#8 = [] ∧
    ¬ Memory.wf [(3, 0#8)] ∧ ¬ Memory.wf [(7, 1#8), (3, 1#8)] ∧ ¬ Memory.wf [(256, 1#8)] := by
  decide

/-! ### Witnesses: concrete values that meet the hypotheses of each statement -/

theorem test_witness_ValidOperandNamesItsRegister :
    verifyRegister 0#8 = true ∧ verifyRegister 7#8 = true := by
  decide

theorem test_witness_AcceptedBytesAreEncodings :
    decode (0x92#8 :: [3#8, 0x77#8, 1#8]) = .ok (.ldi 2#2 3#8 0x77#8) := rfl

theorem test_witness_DispatchTableOfAllBytes :
    0xD1#8 &&& 0x2F#8 = 0x01#8 ∧ 0xD2#8 &&& 0x2F#8 = 0x02#8 ∧ 0xD5#8 &&& 0x2F#8 = 0x05#8 ∧
    0xD6#8 &&& 0x2F#8 = 0x06#8 ∧ 0xD7#8 &&& 0x2F#8 = 0x07#8 ∧ 0xF2#8 &&& 0x2F#8 = 0x22#8 ∧
    ((0xDF#8).getLsbD 5 = false ∧ (0xDF#8).toNat % 16 ∈ [0, 3, 4, 8, 9, 10, 11, 12, 13, 14, 15]) ∧
    ((0x00#8).getLsbD 5 = false ∧ (0x00#8).toNat % 16 ∈ [0, 3, 4, 8, 9, 10, 11, 12, 13, 14, 15]) ∧
    ((0xFF#8).getLsbD 5 = true ∧ (0xFF#8).toNat % 16 ≠ 2) ∧
    ((0x20#8).getLsbD 5 = true ∧ (0x20#8).toNat % 16 ≠ 2) := by
  decide

theorem test_witness_StepRunsDecodedInstruction :
    (at_ 0#9 [(0, 0x01#8)]).run = .running ∧
    decode (fetchWindow (at_ 0#9 [(0, 0x01#8)])) = .ok (.hlt 0#2) :=
  ⟨rfl, rfl⟩

theorem test_witness_StepDispatchesByKey :
    dispatchKey (at_ 255#9 [(255, 0xC1#8)]) = 0x01#8 ∧ dispatchKey (at_ 253#9 [(253, 0x82#8)]) = 0x02#8 ∧
    dispatchKey (at_ 254#9 [(254, 0x45#8)]) = 0x05#8 ∧ dispatchKey (at_ 254#9 [(254, 0x46#8)]) = 0x06#8 ∧
    dispatchKey (at_ 254#9 [(254, 0x47#8)]) = 0x07#8 ∧ dispatchKey (at_ 253#9 [(253, 0xA2#8)]) = 0x22#8 ∧
    (∀ k ∈ [253#9, 254#9, 255#9], ∀ m, (at_ k m).run = .running) ∧
    (at_ 255#9 []).pc.toNat ≤ 255 ∧ (at_ 254#9 []).pc.toNat ≤ 254 ∧ (at_ 253#9 []).pc.toNat ≤ 253 := by
  refine ⟨by decide, by decide, by decide, by decide, by decide, by decide, fun _ _ _ => rfl, ?_⟩
  decide

theorem test_witness_FetchOutOfRangeHalts :
    (at_ 256#9 []).run = .running ∧ 256 ≤ (at_ 256#9 []).pc.toNat ∧ 256 ≤ (at_ 511#9 []).pc.toNat := by
  decide

theorem test_witness_OperandOutOfRangeHalts :
    dispatchKey (at_ 255#9 [(255, 0x02#8)]) ∈ [0x02#8, 0x05#8, 0x06#8, 0x07#8] ∧
    dispatchKey (at_ 255#9 [(255, 0x47#8)]) ∈ [0x02#8, 0x05#8, 0x06#8, 0x07#8] ∧
    (byteAt (at_ 255#9 [(255, 0xA2#8)]) 0).getLsbD 5 = true ∧
    dispatchKey (at_ 254#9 [(254, 0x82#8)]) = 0x02#8 ∧
    (byteAt (at_ 254#9 [(254, 0x2F#8)]) 0).getLsbD 5 = true ∧
    (at_ 255#9 [(255, 0x02#8)]).run = .running ∧ (at_ 255#9 [(255, 0x02#8)]).pc.toNat = 255 ∧
    (at_ 254#9 [(254, 0x82#8)]).run = .running ∧ (at_ 254#9 [(254, 0x82#8)]).pc.toNat = 254 := by
  decide

theorem test_witness_UndefinedDirectOpcodeHalts :
    (at_ 255#9 [(255, 0x0F#8)]).run = .running ∧ (at_ 255#9 [(255, 0x0F#8)]).pc.toNat ≤ 255 ∧
    (byteAt (at_ 255#9 [(255, 0x0F#8)]) 0).getLsbD 5 = false ∧
    (byteAt (at_ 255#9 [(255, 0x0F#8)]) 0).toNat % 16 ∈ [0, 3, 4, 8, 9, 10, 11, 12, 13, 14, 15] := by
  decide

theorem test_witness_UndefinedAluOpcodeHalts :
    ∀ a ∈ [0#8, 7#8, 8#8], ∀ b ∈ [7#8, 8#8],
      (at_ 253#9 [(253, 0xA0#8), (254, a), (255, b)]).run = .running ∧
      (at_ 253#9 [(253, 0xA0#8), (254, a), (255, b)]).pc.toNat ≤ 253 ∧
      (byteAt (at_ 253#9 [(253, 0xA0#8), (254, a), (255, b)]) 0).getLsbD 5 = true ∧
      (byteAt (at_ 253#9 [(253, 0xA0#8), (254, a), (255, b)]) 0).toNat % 16 ≠ 2 := by
  decide

theorem test_witness_LdiLoadsImmediate : (at_ 255#9 []).pc.toNat ≤ 255 ∧ (7#8).toNat ≤ 7 := by
  decide

theorem test_witness_PrnEmitsRegister : (at_ 0#9 []).pc.toNat ≤ 255 ∧ (7#8).toNat ≤ 7 := by
  decide

theorem test_witness_MulMultipliesIntoFirst :
    (at_ 255#9 []).pc.toNat ≤ 255 ∧ (7#8).toNat ≤ 7 ∧ (0#8).toNat ≤ 7 := by
  decide

theorem test_witness_PushStoresBelowStack :
    (at_ 255#9 []).pc.toNat ≤ 255 ∧ (7#8).toNat ≤ 7 ∧ Memory.wf (at_ 255#9 []).mem ∧
    regIndex 7#8 = 7#3 ∧ regIndex 6#8 ≠ 7#3 := by
  decide

theorem test_witness_PopLoadsTopOfStack :
    (at_ 255#9 []).pc.toNat ≤ 255 ∧ (7#8).toNat ≤ 7 ∧ regIndex 7#8 = 7#3 ∧ regIndex 6#8 ≠ 7#3 := by
  decide

theorem test_witness_InvalidRegisterOperandHalts :
    8 ≤ (8#8).toNat ∧ 8 ≤ (0xFF#8).toNat ∧ (7#8).toNat ≤ 7 := by
  decide

theorem test_witness_HaltedTakesNoStep : (raise .halt 0#9 State.reset).run = .halted := rfl

theorem test_witness_RunningStateAlwaysSteps : State.reset.run = .running := rfl

theorem test_witness_HaltingStepChangesOnlyStatus :
    ∃ t, step State.reset = .next t ∧ t.run = .halted :=
  ⟨_, rfl, rfl⟩

theorem test_witness_PcAdvancesOrStays :
    (∃ t, step (at_ 0#9 [(0, 0x47#8)]) = .next t ∧ t.run = .running) ∧
    ∃ t, step State.reset = .next t ∧ t.run = .halted :=
  ⟨⟨_, rfl, rfl⟩, ⟨_, rfl, rfl⟩⟩

theorem test_witness_CleanHaltOnlyByHlt :
    (∃ t, step (at_ 255#9 [(255, 0xC1#8)]) = .next t ∧ Clean t) ∧
    ∃ t, step State.reset = .next t ∧ ¬ Clean t :=
  ⟨⟨_, rfl, rfl, rfl⟩, ⟨_, rfl, fun h => absurd h.2 (by decide)⟩⟩

theorem test_witness_OnlyPushWritesMemory :
    ∃ t, step (at_ 0#9 [(0, 0x45#8)] (r01 5#8 0#8)) = .next t ∧
      t.mem ≠ (at_ 0#9 [(0, 0x45#8)] (r01 5#8 0#8)).mem :=
  ⟨_, rfl, by decide⟩

theorem test_witness_OnlyPrnExtendsOutput :
    ∃ t, step (at_ 0#9 [(0, 0x47#8)]) = .next t ∧ t.out ≠ (at_ 0#9 [(0, 0x47#8)]).out :=
  ⟨_, rfl, by decide⟩

theorem test_witness_OnlyDestinationsChange :
    ∃ t, step (at_ 0#9 [(0, 0x46#8)]) = .next t ∧ getReg t 7#3 ≠ getReg (at_ 0#9 [(0, 0x46#8)]) 7#3 :=
  ⟨_, rfl, by decide⟩

theorem test_witness_OperandCountOnlyMovesPc :
    ∃ t, exec (.ldi 2#2 0#8 42#8) State.reset = .next t :=
  ⟨_, rfl⟩

theorem test_witness_StatusAndOutputNeverRead :
    (∃ t, step (at_ 0#9 [(0, 0x47#8)]) = .next t) ∧
    ∃ t, step State.reset = .next t ∧ t.run = .halted :=
  ⟨⟨_, rfl⟩, ⟨_, rfl, rfl⟩⟩

/-- PUSH R0 at 0 with the stack pointer at 3 stores at 2, where the counter goes. -/
theorem test_witness_StoreSeenByNextFetch :
    ∃ t, Memory.wf (at_ 0#9 [(0, 0x45#8)] { r01 1#8 0#8 with x7 := 3#8 }).mem ∧ (0#8).toNat ≤ 7 ∧
      exec (.push 1#2 0#8) (at_ 0#9 [(0, 0x45#8)] { r01 1#8 0#8 with x7 := 3#8 }) = .next t ∧
      t.pc.toNat = stackAddr (decSp (at_ 0#9 [(0, 0x45#8)] { r01 1#8 0#8 with x7 := 3#8 })) :=
  ⟨_, by decide, by decide, rfl, rfl⟩

theorem test_witness_PushThenPopRestores :
    Memory.wf State.reset.mem ∧ (0#8).toNat ≤ 6 ∧ (6#8).toNat ≤ 6 := by
  decide

theorem test_witness_MemReadContract : 256 ≤ 256 ∧ 255 < 256 := by
  decide

theorem test_witness_MemWriteContract :
    256 ≤ 256 ∧ 255 < 256 ∧ Memory.wf [(0, 1#8), (255, 2#8)] := by
  decide

theorem test_witness_AluWritesOnlyFirstRegister : (7#3 : RegIdx) ≠ 0#3 := by
  decide

theorem test_witness_ResetValues : (6#3 : RegIdx) ≠ 7#3 := by
  decide

/-- An image of one byte. -/
def image1 : Image where
  bytes := [1#8]
  fits := by decide

theorem test_witness_LoadPlacesImageInMemory :
    0 < image1.bytes.length ∧ image1.bytes.length ≤ 1 ∧ image1.bytes.length ≤ 255 := by
  decide

theorem test_witness_StepKeepsInvariant : Inv (at_ 0#9 []) ∧ ∃ t, step (at_ 0#9 []) = .next t :=
  ⟨⟨⟨fun _ => ⟨rfl, rfl⟩, fun h => nomatch h⟩, by decide, by decide⟩, ⟨_, rfl⟩⟩

theorem test_witness_PcNeverAbove258 :
    (at_ 258#9 []).pc.toNat ≤ 258 ∧ ∃ t, step (at_ 258#9 []) = .next t :=
  ⟨by decide, ⟨_, rfl⟩⟩

end Sys2Proof.Tests
end

section
/-! The proofs about memory accesses (20_memory.md). -/

namespace Sys2Proof.Machine

/-- Settles O35: the two clauses are the model's two reading rules, on either side of the bound 256. -/
theorem memReadContract : Obligations.MemReadContract := by
  intro m a
  exact ⟨memRead_of_ge m, memRead_of_lt m⟩

end Sys2Proof.Machine
end

section
/-! The proofs about the decoder's fields and the operand check (40_execution_loop.md). -/

namespace Sys2Proof

theorem decodeFields_op_toNat (ib : Byte) : (decodeFields ib).op.toNat = ib.toNat % 16 := by
  simp [decodeFields, BitVec.extractLsb'_toNat]

theorem decodeFields_alu_iff (ib : Byte) :
    (decodeFields ib).alu = true ↔ ib.toNat / 32 % 2 = 1 := by
  simp [decodeFields, BitVec.getLsbD, Nat.testBit_eq_decide_div_mod_eq]

/-- The count is the byte's top field, so the shift alone gives it and the mask drops nothing. -/
theorem decodeFields_n_toNat (ib : Byte) : (decodeFields ib).n.toNat = ib.toNat / 64 := by
  have hshift : (decodeFields ib).n.toNat = ib.toNat / 64 % 4 := by
    simp [decodeFields, BitVec.extractLsb'_toNat, Nat.shiftRight_eq_div_pow]
  have := ib.isLt
  omega

/-- Settles O1: one lemma per field. -/
theorem decodeFieldsAreBitFields : Obligations.DecodeFieldsAreBitFields := by
  intro ib
  exact ⟨decodeFields_op_toNat ib, decodeFields_alu_iff ib, decodeFields_n_toNat ib⟩

end Sys2Proof

namespace Sys2Proof.Machine

/-- The mask of R84 clears the low three bits: a shift right and back. -/
theorem and_upperFive_toNat (b : Byte) : (b &&& 0xF8#8).toNat = b.toNat / 8 * 8 := by
  have hshift : b &&& 0xF8#8 = b >>> 3 <<< 3 := by
    rw [BitVec.shiftLeft_ushiftRight]
    rfl
  have := b.isLt
  rw [hshift, BitVec.toNat_shiftLeft, BitVec.toNat_ushiftRight, Nat.shiftLeft_eq,
    Nat.shiftRight_eq_div_pow]
  omega

theorem and_upperFive_eq_zero_iff (b : Byte) : b &&& 0xF8#8 = 0#8 ↔ b.toNat ≤ 7 := by
  rw [← BitVec.toNat_inj, and_upperFive_toNat, BitVec.toNat_ofNat]
  omega

/-- Settles O2: the check, the quotient by 8 and the mask are each the range test of R68. -/
theorem verifyRegisterChecksUpperFiveBits : Obligations.VerifyRegisterChecksUpperFiveBits := by
  intro b
  rw [verifyRegister_iff, and_upperFive_eq_zero_iff]
  exact ⟨by omega, Iff.rfl, Iff.rfl⟩

end Sys2Proof.Machine
end

section
/-! The proofs about the ALU block (41_alu.md). -/

namespace Sys2Proof.Machine

/-- Settles O37: each unit is one byte operation, and the law of that operation gives its result. -/
theorem aluUnitsWrapModulo256 : Obligations.AluUnitsWrapModulo256 := by
  intro va vb
  exact ⟨addByte_toNat va vb, mulByte_toNat va vb⟩

end Sys2Proof.Machine
end

section
/-! What the decoder answers for the fields of an instruction byte (30_encoding.md sections 1 to 4),
and the proofs about decoding and encoding. -/

namespace Sys2Proof

/-! ### The fields that select an instruction -/

/-- The fields of an instruction's byte: its opcode, its table and its count. -/
def instrFields : Instr → Fields
  | .hlt n => { op := opHlt, alu := false, n := n }
  | .ldi n _ _ => { op := opLdi, alu := false, n := n }
  | .push n _ => { op := opPush, alu := false, n := n }
  | .pop n _ => { op := opPop, alu := false, n := n }
  | .prn n _ => { op := opPrn, alu := false, n := n }
  | .mul n _ _ => { op := opMul, alu := true, n := n }

theorem instrFields_n (i : Instr) : (instrFields i).n = i.count := by
  cases i <;> rfl

theorem firstByte_eq (i : Instr) :
    firstByte i = instructionByte (instrFields i).n (instrFields i).alu (instrFields i).op := by
  cases i <;> rfl

theorem decodeFields_firstByte (i : Instr) : decodeFields (firstByte i) = instrFields i := by
  rw [firstByte_eq, decodeFields_instructionByte]

/-- Clearing bit 4 leaves the byte that its fields build. -/
theorem clearBit4_eq (ib : Byte) : ib &&& 0xEF#8 =
    instructionByte (decodeFields ib).n (decodeFields ib).alu (decodeFields ib).op := by
  revert ib
  decide

/-- Flipping bit 4 leaves every field as it is. -/
theorem decodeFields_flipBit4 (ib : Byte) : decodeFields (ib ^^^ 0x10#8) = decodeFields ib := by
  revert ib
  decide

/-- The dispatch key of a byte is the byte built from its table and its opcode alone. -/
theorem key_eq (ib : Byte) :
    ib &&& 0x2F#8 = instructionByte 0#2 (decodeFields ib).alu (decodeFields ib).op := by
  revert ib
  decide

/-- The key gives the table and the opcode; the count is the byte's own. -/
theorem decodeFields_of_key {ib k : Byte} (h : ib &&& 0x2F#8 = k) : decodeFields ib =
    { op := (decodeFields k).op, alu := (decodeFields k).alu, n := ib.extractLsb' 6 2 } := by
  rw [← h, key_eq, decodeFields_instructionByte]
  rfl

/-! ### Bytes that are an instruction -/

/-- A byte with an instruction's fields, and then its operand bytes, decode to it. -/
theorem decode_of_fields {ib : Byte} {i : Instr} (h : decodeFields ib = instrFields i)
    (tail : List Byte) : decode (ib :: (operandList i ++ tail)) = .ok i := by
  rw [decode, h]
  cases i <;> rfl

theorem decodeR_ok_inv {mk : Byte → Instr} {rest : List Byte} {i : Instr}
    (h : decodeR mk rest = .ok i) : ∃ o1 tail, rest = o1 :: tail ∧ i = mk o1 := by
  obtain ⟨-, he⟩ | ⟨o1, tail, hrest, he⟩ := decodeR_cases mk rest
  · rw [he] at h
    cases h
  · rw [he] at h
    exact ⟨o1, tail, hrest, (Except.ok.inj h).symm⟩

theorem decodeTwo_ok_inv {mk : Byte → Byte → Except Reject Instr} {rest : List Byte} {i : Instr}
    (h : decodeTwo mk rest = .ok i) : ∃ o1 o2 tail, rest = o1 :: o2 :: tail ∧ mk o1 o2 = .ok i := by
  obtain ⟨-, he⟩ | ⟨o1, -, he⟩ | ⟨o1, o2, tail, hrest, he⟩ := decodeTwo_cases mk rest
  · rw [he] at h
    cases h
  · rw [he] at h
    cases h
  · exact ⟨o1, o2, tail, hrest, he ▸ h⟩

theorem decodeAlu_ok_inv {f : Fields} {rest : List Byte} {i : Instr} (halu : f.alu = true)
    (h : decodeAlu f rest = .ok i) :
    f = instrFields i ∧ ∃ tail, rest = operandList i ++ tail := by
  obtain ⟨a, b, tail, rfl, hi⟩ := decodeTwo_ok_inv h
  split at hi
  · next hop =>
    cases hi
    exact ⟨by rw [instrFields, ← hop, ← halu], tail, rfl⟩
  · cases hi

theorem decodeDirect_ok_inv {f : Fields} {rest : List Byte} {i : Instr} (halu : f.alu = false)
    (h : decodeDirect f rest = .ok i) :
    f = instrFields i ∧ ∃ tail, rest = operandList i ++ tail := by
  rw [decodeDirect] at h
  split_ifs at h with hhlt hldi hpush hpop hprn
  · cases h
    exact ⟨by rw [instrFields, ← hhlt, ← halu], rest, rfl⟩
  · obtain ⟨d, imm, tail, rfl, hi⟩ := decodeTwo_ok_inv h
    cases hi
    exact ⟨by rw [instrFields, ← hldi, ← halu], tail, rfl⟩
  · obtain ⟨src, tail, rfl, rfl⟩ := decodeR_ok_inv h
    exact ⟨by rw [instrFields, ← hpush, ← halu], tail, rfl⟩
  · obtain ⟨d, tail, rfl, rfl⟩ := decodeR_ok_inv h
    exact ⟨by rw [instrFields, ← hpop, ← halu], tail, rfl⟩
  · obtain ⟨src, tail, rfl, rfl⟩ := decodeR_ok_inv h
    exact ⟨by rw [instrFields, ← hprn, ← halu], tail, rfl⟩

/-- The inversion of the decoder: what decodes to an instruction begins with a byte of its fields and
its operand bytes. -/
theorem decode_ok_inv {ib : Byte} {rest : List Byte} {i : Instr}
    (h : decode (ib :: rest) = .ok i) :
    decodeFields ib = instrFields i ∧ ∃ tail, rest = operandList i ++ tail := by
  rw [decode] at h
  split at h
  · next halu => exact decodeAlu_ok_inv halu h
  · next halu => exact decodeDirect_ok_inv (Bool.not_eq_true _ ▸ halu) h

/-! ### Bytes that are none -/

/-- The direct opcodes with no handler, as the list of R74. -/
theorem undefinedDirect_iff (op : Opcode) :
    op.toNat ∈ [0, 3, 4, 8, 9, 10, 11, 12, 13, 14, 15] ↔
      op ≠ opHlt ∧ op ≠ opLdi ∧ op ≠ opPush ∧ op ≠ opPop ∧ op ≠ opPrn := by
  revert op
  decide

theorem decode_undefinedDirect {ib : Byte} (halu : ib.getLsbD 5 = false)
    (hop : ib.toNat % 16 ∈ [0, 3, 4, 8, 9, 10, 11, 12, 13, 14, 15]) (rest : List Byte) :
    decode (ib :: rest) = .error (.undefinedDirect (ib.extractLsb' 0 4)) := by
  rw [← decodeFields_op_toNat, undefinedDirect_iff] at hop
  obtain ⟨hhlt, hldi, hpush, hpop, hprn⟩ := hop
  have hdirect : (decodeFields ib).alu = false := halu
  rw [decode, hdirect, if_neg Bool.false_ne_true, decodeDirect, if_neg hhlt, if_neg hldi,
    if_neg hpush, if_neg hpop, if_neg hprn]
  rfl

theorem decode_undefinedAlu {ib : Byte} (halu : ib.getLsbD 5 = true) (hop : ib.toNat % 16 ≠ 2)
    (a b : Byte) (rest : List Byte) :
    decode (ib :: a :: b :: rest) = .error (.undefinedAlu (ib.extractLsb' 0 4) a b) := by
  have halu' : (decodeFields ib).alu = true := halu
  have hmul : (decodeFields ib).op ≠ opMul := fun h =>
    hop (by rw [← decodeFields_op_toNat, h]; rfl)
  rw [decode, if_pos halu', decodeAlu, decodeTwo, if_neg hmul]
  rfl

theorem decodeR_error_inv {mk : Byte → Instr} {rest : List Byte} {r : Reject}
    (h : decodeR mk rest = .error r) : r = .noOperand 1 ∧ rest.length = 0 := by
  obtain ⟨rfl, he⟩ | ⟨o1, tail, -, he⟩ := decodeR_cases mk rest
  · rw [he] at h
    exact ⟨(Except.error.inj h).symm, rfl⟩
  · rw [he] at h
    cases h

/-- Two operand bytes are rejected because one is missing, or as a whole. -/
theorem decodeTwo_error_inv {mk : Byte → Byte → Except Reject Instr} {rest : List Byte} {r : Reject}
    (h : decodeTwo mk rest = .error r) :
    (r = .noOperand (rest.length + 1) ∧ rest.length ≤ 1) ∨ ∃ o1 o2, mk o1 o2 = .error r := by
  obtain ⟨rfl, he⟩ | ⟨o1, rfl, he⟩ | ⟨o1, o2, tail, -, he⟩ := decodeTwo_cases mk rest
  · rw [he] at h
    exact .inl ⟨(Except.error.inj h).symm, Nat.zero_le 1⟩
  · rw [he] at h
    exact .inl ⟨(Except.error.inj h).symm, Nat.le_refl 1⟩
  · exact .inr ⟨o1, o2, he ▸ h⟩

/-- Why bytes are no instruction: they end before a byte that is asked for, or the opcode is
undefined in its table. -/
def RejectFits (bs : List Byte) : Reject → Prop
  | .noByte => bs.length = 0
  | .noOperand k => bs.length = k ∧ k ≤ 2
  | .undefinedDirect op => op.toNat ∈ [0, 3, 4, 8, 9, 10, 11, 12, 13, 14, 15]
  | .undefinedAlu op _ _ => op ≠ opMul

theorem decodeAlu_error_fits {f : Fields} {ib : Byte} {rest : List Byte} {r : Reject}
    (h : decodeAlu f rest = .error r) : RejectFits (ib :: rest) r := by
  obtain ⟨rfl, hlen⟩ | ⟨a, b, hr⟩ := decodeTwo_error_inv h
  · exact ⟨rfl, by omega⟩
  · split at hr
    · cases hr
    · next hop =>
      cases hr
      exact hop

theorem decodeDirect_error_fits {f : Fields} {ib : Byte} {rest : List Byte} {r : Reject}
    (h : decodeDirect f rest = .error r) : RejectFits (ib :: rest) r := by
  have hone {mk : Byte → Instr} (h : decodeR mk rest = .error r) : RejectFits (ib :: rest) r := by
    obtain ⟨rfl, hlen⟩ := decodeR_error_inv h
    exact ⟨by rw [List.length_cons, hlen], by decide⟩
  rw [decodeDirect] at h
  split_ifs at h with hhlt hldi hpush hpop hprn
  · obtain ⟨rfl, hlen⟩ | ⟨d, imm, hr⟩ := decodeTwo_error_inv h
    · exact ⟨rfl, by omega⟩
    · cases hr
  · exact hone h
  · exact hone h
  · exact hone h
  · cases h
    exact (undefinedDirect_iff f.op).2 ⟨hhlt, hldi, hpush, hpop, hprn⟩

theorem decode_error_fits {bs : List Byte} {r : Reject} (h : decode bs = .error r) :
    RejectFits bs r := by
  cases bs with
  | nil =>
    cases h
    rfl
  | cons ib rest =>
    rw [decode] at h
    split at h
    · exact decodeAlu_error_fits h
    · exact decodeDirect_error_fits h

/-! ### The obligations about decoding and encoding -/

/-- Settles O5: the instruction byte has the instruction's fields, so the decoder finds it. -/
theorem decodeEncodeRoundTrip : Obligations.DecodeEncodeRoundTrip := by
  intro i rest
  exact decode_of_fields (decodeFields_firstByte i) rest

/-- Settles O6: the byte with bit 4 cleared is built from its fields, which are the instruction's. -/
theorem acceptedBytesAreEncodings : Obligations.AcceptedBytesAreEncodings := by
  intro ib rest i h
  obtain ⟨hfields, tail, rfl⟩ := decode_ok_inv h
  have hbyte : ib &&& 0xEF#8 = firstByte i := by rw [clearBit4_eq, hfields, firstByte_eq]
  exact ⟨tail, by rw [hbyte]; rfl⟩

/-- Settles O7: each key gives the fields of its instruction; the two lists of undefined opcodes have
a lemma each. -/
theorem dispatchTableOfAllBytes : Obligations.DispatchTableOfAllBytes := by
  intro ib o1 o2 rest
  refine ⟨fun hk => ⟨?_, ?_⟩, fun hk => ?_, fun hk => ?_, fun hk => ?_, fun hk => ?_, fun hk => ?_,
    fun halu hop => decode_undefinedDirect halu hop rest,
    fun halu hop => decode_undefinedAlu halu hop o1 o2 rest⟩
  · exact decode_of_fields (i := .hlt _) (decodeFields_of_key hk) (o1 :: o2 :: rest)
  · exact decode_of_fields (i := .hlt _) (decodeFields_of_key hk) []
  · exact decode_of_fields (i := .ldi _ o1 o2) (decodeFields_of_key hk) rest
  · exact decode_of_fields (i := .push _ o1) (decodeFields_of_key hk) rest
  · exact decode_of_fields (i := .pop _ o1) (decodeFields_of_key hk) rest
  · exact decode_of_fields (i := .prn _ o1) (decodeFields_of_key hk) rest
  · exact decode_of_fields (i := .mul _ o1 o2) (decodeFields_of_key hk) rest

/-- Settles O4: the decoder looks at the fields only, and bit 4 is in none of them. -/
theorem bitFourOfInstructionByteIgnored : Obligations.BitFourOfInstructionByteIgnored := by
  intro ib rest
  rw [decode, decode, decodeFields_flipBit4]

/-- Settles O8: each word is evaluated. -/
theorem decodedWordsOfEveryInstruction : Obligations.DecodedWordsOfEveryInstruction :=
  ⟨rfl, rfl, rfl, rfl, rfl, rfl, rfl, rfl, rfl, rfl, rfl, rfl⟩

end Sys2Proof

namespace Sys2Proof.Machine

/-- Settles O3: the index is the byte modulo 8, which changes nothing up to 7. -/
theorem validOperandNamesItsRegister : Obligations.ValidOperandNamesItsRegister := by
  refine ⟨fun b hb => ?_, fun r => ⟨r.setWidth 8, ?_, ?_⟩⟩
  · have := (verifyRegister_iff b).1 hb
    rw [regIndex_toNat]
    omega
  · have := r.isLt
    rw [verifyRegister_iff, BitVec.toNat_setWidth]
    omega
  · have := r.isLt
    rw [← BitVec.toNat_inj, regIndex_toNat, BitVec.toNat_setWidth]
    omega

end Sys2Proof.Machine
end

section
/-! What an instruction does, said once for all six (40_execution_loop.md R80): whether it halts is
read off the instruction alone, and where it does not its effect comes before the counter moves. -/

namespace Sys2Proof.Machine

open Sys2Proof.Safety

@[simp] theorem spIndex_eq : Config.spIndex = 7#3 := rfl

/-! ### The halt condition and the effect of an instruction -/

/-- The halt condition of the first register-operand byte that is not valid (R142). -/
def operandHalt (bs : List Byte) : Option (Condition × PcWord) :=
  (bs.find? fun b => !verifyRegister b).map fun b => (.invalidRegister, b.setWidth 9)

/-- The halt condition an instruction takes, with the value it records, in whatever state it runs. -/
def haltOf : Instr → Option (Condition × PcWord)
  | .hlt _ => some (.halt, 0#9)
  | .ldi _ d _ => operandHalt [d]
  | .push _ src => operandHalt [src]
  | .pop _ d => operandHalt [d]
  | .prn _ src => operandHalt [src]
  | .mul _ a b => operandHalt [a, b]

/-- What an instruction that takes no halt condition does before the counter moves. -/
def effect : Instr → State → State
  | .hlt _, s => s
  | .ldi _ d imm, s => setReg (regIndex d) imm s
  | .push _ src, s => setMem (Memory.put s.mem (stackAddr (decSp s))
      (getReg (decSp s) (regIndex src))) (decSp s)
  | .pop _ d, s => incSp (setReg (regIndex d) (Memory.get s.mem (stackAddr s)) s)
  | .prn _ src, s => emit (getReg s (regIndex src)) s
  | .mul _ a b, s => aluApply .mul (regIndex a) (regIndex b) s

/-- The state an instruction leaves. -/
def execState (i : Instr) (s : State) : State :=
  (haltOf i).elim (advance i.count (effect i s)) fun c => raise c.1 c.2 s

/-- The check of one operand byte is the branch of the meanings of LDI, PUSH, POP and PRN. -/
theorem elim_operandHalt_one (b : Byte) (t s : State) :
    (operandHalt [b]).elim t (fun c => raise c.1 c.2 s) =
      if verifyRegister b then t else raiseInvalidRegister b s := by
  cases hb : verifyRegister b <;> simp [operandHalt, hb, raiseInvalidRegister_eq]

/-- The check of two operand bytes is the branch of MUL's meaning. -/
theorem elim_operandHalt_two (a b : Byte) (t s : State) :
    (operandHalt [a, b]).elim t (fun c => raise c.1 c.2 s) =
      if verifyRegister a = false then raiseInvalidRegister a s
      else if verifyRegister b = false then raiseInvalidRegister b s else t := by
  cases ha : verifyRegister a <;> cases hb : verifyRegister b <;>
    simp [operandHalt, ha, hb, raiseInvalidRegister_eq]

/-- The meaning of every instruction: it always answers, with `execState`. -/
theorem exec_eq (i : Instr) (s : State) : exec i s = .next (execState i s) := by
  cases i with
  | hlt n => rfl
  | ldi n d imm => rw [exec, execLdi_eq, ← elim_operandHalt_one]; rfl
  | push n src => rw [exec, execPush_eq, ← elim_operandHalt_one]; rfl
  | pop n d => rw [exec, execPop_eq, ← elim_operandHalt_one]; rfl
  | prn n src => rw [exec, execPrn_eq, ← elim_operandHalt_one]; rfl
  | mul n a b => rw [exec, execMul_eq, ← elim_operandHalt_two]; rfl

theorem operandHalt_some {bs : List Byte} {c : Condition × PcWord} (h : operandHalt bs = some c) :
    ∃ b, verifyRegister b = false ∧ c = (.invalidRegister, b.setWidth 9) := by
  obtain ⟨b, hfind, rfl⟩ := Option.map_eq_some_iff.1 h
  exact ⟨b, by simpa using List.find?_some hfind, rfl⟩

/-- An instruction takes HLT's own halt condition or InvalidRegister. -/
theorem haltOf_some {i : Instr} {c : Condition × PcWord} (h : haltOf i = some c) :
    (∃ n, i = .hlt n ∧ c = (.halt, 0#9)) ∨
    ∃ b, verifyRegister b = false ∧ c = (.invalidRegister, b.setWidth 9) := by
  cases i with
  | hlt n => exact .inl ⟨n, rfl, (Option.some.inj h).symm⟩
  | _ => exact .inr (operandHalt_some h)

theorem execState_of_halts {i : Instr} {c : Condition × PcWord} (h : haltOf i = some c) (s : State) :
    execState i s = raise c.1 c.2 s := by
  rw [execState, h, Option.elim_some]

theorem execState_of_completes {i : Instr} (h : haltOf i = none) (s : State) :
    execState i s = advance i.count (effect i s) := by
  rw [execState, h, Option.elim_none]

/-- An instruction that completes reads an operand byte: only HLT reads none. -/
theorem operandList_pos {i : Instr} (h : haltOf i = none) : 1 ≤ (operandList i).length := by
  cases i with
  | hlt n => cases h
  | _ => simp [operandList]

/-! ### What the effect leaves alone -/

@[simp] theorem effect_pc (i : Instr) (s : State) : (effect i s).pc = s.pc := by
  cases i <;> rfl

@[simp] theorem effect_run (i : Instr) (s : State) : (effect i s).run = s.run := by
  cases i <;> rfl

@[simp] theorem effect_cause (i : Instr) (s : State) : (effect i s).cause = s.cause := by
  cases i <;> rfl

@[simp] theorem effect_info (i : Instr) (s : State) : (effect i s).info = s.info := by
  cases i <;> rfl

theorem effect_mem_changed {i : Instr} {s : State} (h : (effect i s).mem ≠ s.mem) :
    ∃ n src, i = .push n src := by
  cases i with
  | push n src => exact ⟨n, src, rfl⟩
  | _ => exact absurd rfl h

theorem effect_push_get_ne (n : Count) (src : Byte) (s : State) {a : Nat}
    (h : a ≠ stackAddr (decSp s)) :
    Memory.get (effect (.push n src) s).mem a = Memory.get s.mem a :=
  Memory.get_put_ne s.mem _ h

theorem effect_wf (i : Instr) {s : State} (h : Memory.wf s.mem) : Memory.wf (effect i s).mem := by
  cases i with
  | push n src => exact Memory.put_wf h (stackAddr_lt _) _
  | _ => exact h

theorem effect_out_changed {i : Instr} {s : State} (h : (effect i s).out ≠ s.out) :
    ∃ n src, i = .prn n src := by
  cases i with
  | prn n src => exact ⟨n, src, rfl⟩
  | _ => exact absurd rfl h

theorem effect_getReg_ne {i : Instr} {r : RegIdx} (h : r ∉ writtenRegs i) (s : State) :
    getReg (effect i s) r = getReg s r := by
  cases i with
  | hlt n => rfl
  | ldi n d imm => exact getReg_setReg_ne imm s (List.ne_of_not_mem_cons h)
  | push n src => exact getReg_setReg_ne _ s (List.ne_of_not_mem_cons h)
  | pop n d =>
    have hd : r ≠ regIndex d := List.ne_of_not_mem_cons h
    have hsp : r ≠ 7#3 := List.ne_of_not_mem_cons (List.not_mem_of_not_mem_cons h)
    rw [effect, incSp_eq, spIndex_eq, getReg_setReg_ne _ _ hsp, getReg_setReg_ne _ _ hd]
  | prn n src => rfl
  | mul n a b => exact getReg_setReg_ne _ s (List.ne_of_not_mem_cons h)

/-- The effect reads neither the status fields nor the output, and appends the same bytes to any. -/
theorem effect_of_status (i : Instr) (s : State) (c : CauseCode) (v : PcWord) (o : List Byte) :
    ∃ d, (effect i s).out = s.out ++ d ∧ effect i { s with cause := c, info := v, out := o } =
      { effect i s with cause := c, info := v, out := o ++ d } := by
  cases i with
  | prn n src => exact ⟨[getReg s (regIndex src)], rfl, rfl⟩
  | _ => exact ⟨[], (List.append_nil _).symm, by rw [List.append_nil]; rfl⟩

/-! ### The halt condition of bytes that are no instruction -/

/-- The halt condition a rejection takes at a program counter. -/
def rejectHalt : Reject → PcWord → Condition × PcWord
  | .noByte, pc => (.outOfRange, BitVec.ofNat 9 pc.toNat)
  | .noOperand k, pc => (.outOfRange, BitVec.ofNat 9 (pc.toNat + k))
  | .undefinedDirect op, _ => (.invalidOpcode, op.setWidth 9)
  | .undefinedAlu op a b, _ =>
    (operandHalt [a, b]).getD (.unsupportedOperation, op.setWidth 9)

theorem takeReject_eq (r : Reject) (s : State) :
    takeReject r s = raise (rejectHalt r s.pc).1 (rejectHalt r s.pc).2 s := by
  cases r with
  | undefinedAlu op a b =>
    rw [takeReject, ← elim_operandHalt_two, rejectHalt]
    cases operandHalt [a, b] <;> rfl
  | _ => rfl

end Sys2Proof.Machine
end

section
/-! What a step does (40_execution_loop.md R80, R81): the bytes it fetches, its next state from what
they decode to, and the proofs about steps. -/

namespace Sys2Proof.Machine

open Sys2Proof.Safety

/-! ### The bytes at the program counter -/

theorem bytesFrom_succ (m : Memory) (k : Nat) {a : Nat} (h : a < 256) :
    bytesFrom m (k + 1) a = Memory.get m a :: bytesFrom m k (a + 1) := by
  rw [bytesFrom, memRead_of_lt m h]

theorem bytesFrom_of_ge (m : Memory) (k : Nat) {a : Nat} (h : 256 ≤ a) : bytesFrom m k a = [] := by
  cases k with
  | zero => rfl
  | succ k => rw [bytesFrom, memRead_of_ge m h]

theorem bytesFrom_length (m : Memory) (k a : Nat) :
    (bytesFrom m k a).length = min k (256 - a) := by
  induction k generalizing a with
  | zero => simp [bytesFrom]
  | succ k ih =>
    rcases Nat.lt_or_ge a 256 with ha | ha
    · rw [bytesFrom_succ m k ha, List.length_cons, ih]
      omega
    · rw [bytesFrom_of_ge m _ ha, List.length_nil]
      omega

theorem bytesFrom_getElem? (m : Memory) (k a j : Nat) :
    (bytesFrom m k a)[j]? = if j < k ∧ a + j < 256 then some (Memory.get m (a + j)) else none := by
  induction k generalizing a j with
  | zero => simp [bytesFrom]
  | succ k ih =>
    rcases Nat.lt_or_ge a 256 with ha | ha
    · rw [bytesFrom_succ m k ha]
      cases j with
      | zero => simp [ha]
      | succ j => simp [ih, Nat.add_assoc, Nat.add_comm 1 j]
    · rw [bytesFrom_of_ge m _ ha, List.getElem?_nil, if_neg (by omega)]

theorem fetchWindow_length (s : State) :
    (fetchWindow s).length = min 3 (256 - s.pc.toNat) :=
  bytesFrom_length s.mem 3 s.pc.toNat

theorem fetchWindow_getElem? (s : State) (k : Nat) :
    (fetchWindow s)[k]? = if k < 3 ∧ s.pc.toNat + k < 256 then some (byteAt s k) else none :=
  bytesFrom_getElem? s.mem 3 s.pc.toNat k

theorem fetchWindow_head (s : State) (h : s.pc.toNat ≤ 255) :
    ∃ tail, fetchWindow s = byteAt s 0 :: tail :=
  ⟨_, bytesFrom_succ s.mem 2 (by omega)⟩

theorem fetchWindow_two (s : State) (h : s.pc.toNat ≤ 254) :
    ∃ tail, fetchWindow s = byteAt s 0 :: byteAt s 1 :: tail := by
  refine ⟨bytesFrom s.mem 1 (s.pc.toNat + 1 + 1), ?_⟩
  rw [fetchWindow, bytesFrom_succ _ _ (by omega), bytesFrom_succ _ _ (by omega)]
  rfl

theorem fetchWindow_three (s : State) (h : s.pc.toNat ≤ 253) :
    fetchWindow s = [byteAt s 0, byteAt s 1, byteAt s 2] :=
  fetchWindow_of_le s h

theorem fetchWindow_at_255 (s : State) (h : s.pc.toNat = 255) :
    fetchWindow s = [byteAt s 0] := by
  rw [fetchWindow_255 s h, byteAt, h]

theorem fetchWindow_at_254 (s : State) (h : s.pc.toNat = 254) :
    fetchWindow s = [byteAt s 0, byteAt s 1] := by
  rw [fetchWindow_254 s h, byteAt, byteAt, h]

/-- A fetched instruction: the byte at the counter has its fields, and all its bytes are in memory. -/
theorem fetched_inv {s : State} {i : Instr} (h : decode (fetchWindow s) = .ok i) :
    decodeFields (byteAt s 0) = instrFields i ∧
      s.pc.toNat + 1 + (operandList i).length ≤ 256 := by
  rcases Nat.lt_or_ge s.pc.toNat 256 with hpc | hpc
  · obtain ⟨rest, hw⟩ := fetchWindow_head s (by omega)
    have hlen := fetchWindow_length s
    rw [hw] at h hlen
    obtain ⟨hfields, tail, rfl⟩ := decode_ok_inv h
    rw [List.length_cons, List.length_append] at hlen
    exact ⟨hfields, by omega⟩
  · rw [fetchWindow_of_ge s hpc] at h
    cases h

/-- The count of a fetched instruction is bits 7:6 of the byte at the counter. -/
theorem fetched_count {s : State} {i : Instr} (h : decode (fetchWindow s) = .ok i) :
    (byteAt s 0).extractLsb' 6 2 = i.count := by
  rw [← instrFields_n, ← (fetched_inv h).1]
  rfl

/-! ### The next state -/

theorem step_of_ok {s : State} {i : Instr} (hrun : s.run = .running)
    (h : decode (fetchWindow s) = .ok i) : step s = exec i s := by
  rw [step, hrun, h]

theorem step_of_error {s : State} {r : Reject} (hrun : s.run = .running)
    (h : decode (fetchWindow s) = .error r) :
    step s = .next (raise (rejectHalt r s.pc).1 (rejectHalt r s.pc).2 s) := by
  rw [step, hrun, h, ← takeReject_eq]

theorem step_of_halted {s : State} (h : s.run = .halted) : step s = .fault .halted := by
  rw [step, h]

/-- The inversion of a step by its two ends: it takes a halt condition, or it completes a fetched
instruction. -/
theorem step_inv {s t : State} (h : step s = .next t) :
    (∃ e v, t = raise e v s) ∨
    ∃ i, decode (fetchWindow s) = .ok i ∧ haltOf i = none ∧ t = advance i.count (effect i s) := by
  obtain ⟨-, ⟨i, hi, he⟩ | ⟨r, -, rfl⟩⟩ := step_cases h
  · rw [exec_eq] at he
    cases he
    cases hh : haltOf i with
    | none => exact .inr ⟨i, hi, hh, execState_of_completes hh s⟩
    | some c => exact .inl ⟨c.1, c.2, execState_of_halts hh s⟩
  · exact .inl ⟨_, _, takeReject_eq r s⟩

theorem step_running {s t : State} (h : step s = .next t) : s.run = .running :=
  (step_cases h).1

/-- A step that leaves the machine Running completed a fetched instruction. -/
theorem step_running_inv {s t : State} (h : step s = .next t) (ht : t.run = .running) :
    ∃ i, decode (fetchWindow s) = .ok i ∧ haltOf i = none ∧ t = advance i.count (effect i s) := by
  obtain ⟨e, v, rfl⟩ | hi := step_inv h
  · cases ht
  · exact hi

/-- A step that ends Halted took a halt condition. -/
theorem step_halted_inv {s t : State} (h : step s = .next t) (ht : t.run = .halted) :
    ∃ e v, t = raise e v s := by
  obtain he | ⟨i, -, -, rfl⟩ := step_inv h
  · exact he
  · rw [advance_run, effect_run, step_running h] at ht
    cases ht

/-- The counter after a completed instruction, in numbers. -/
theorem completed_pc {s : State} {i : Instr} (h : decode (fetchWindow s) = .ok i) :
    (advance i.count (effect i s)).pc.toNat = s.pc.toNat + 1 + i.count.toNat := by
  have hfit := (fetched_inv h).2
  rw [advance_pc_toNat _ _ (by rw [effect_pc]; omega), effect_pc]

/-! ### The obligations about what a step executes -/

/-- Settles O9: the step is the match on the decoder's answer, and the window is read cell by cell. -/
theorem stepRunsDecodedInstruction : Obligations.StepRunsDecodedInstruction :=
  ⟨fun _ _ => step_of_ok, fetchWindow_getElem?⟩

/-- A step by the fields of the byte at the counter, where the operand bytes follow it in memory. -/
theorem step_of_fields {s : State} {i : Instr} (hrun : s.run = .running)
    (hfetch : ∃ tail, fetchWindow s = byteAt s 0 :: (operandList i ++ tail))
    (hfields : decodeFields (byteAt s 0) = instrFields i) : step s = exec i s := by
  obtain ⟨tail, hw⟩ := hfetch
  exact step_of_ok hrun (by rw [hw, decode_of_fields hfields])

theorem step_of_hlt_key {s : State} (hrun : s.run = .running) (hpc : s.pc.toNat ≤ 255)
    (hkey : dispatchKey s = 0x01#8) : step s = exec (.hlt ((byteAt s 0).extractLsb' 6 2)) s :=
  step_of_fields hrun (fetchWindow_head s hpc) (decodeFields_of_key hkey)

/-- Settles O10: the key gives the fields of its instruction, and the window holds its operands. -/
theorem stepDispatchesByKey : Obligations.StepDispatchesByKey := by
  intro s hrun
  refine ⟨step_of_hlt_key hrun, fun hpc hkey => ?_, fun hpc hkey => ?_, fun hpc hkey => ?_,
    fun hpc hkey => ?_, fun hpc hkey => ?_⟩
  · exact step_of_fields hrun ⟨[], fetchWindow_three s hpc⟩ (decodeFields_of_key hkey)
  · exact step_of_fields hrun (fetchWindow_two s hpc) (decodeFields_of_key hkey)
  · exact step_of_fields hrun (fetchWindow_two s hpc) (decodeFields_of_key hkey)
  · exact step_of_fields hrun (fetchWindow_two s hpc) (decodeFields_of_key hkey)
  · exact step_of_fields hrun ⟨[], fetchWindow_three s hpc⟩ (decodeFields_of_key hkey)

/-! ### The obligations about bytes that are no instruction -/

/-- Settles O11: nothing is fetched, and the recorded address is the counter itself. -/
theorem fetchOutOfRangeHalts : Obligations.FetchOutOfRangeHalts := by
  intro s hrun hpc
  have hdecode : decode (fetchWindow s) = .error .noByte := by rw [fetchWindow_of_ge s hpc]; rfl
  rw [step_of_error hrun hdecode, rejectHalt, BitVec.ofNat_toNat, BitVec.setWidth_eq]
  rfl

/-- A missing operand byte at address 256 halts there. -/
theorem step_of_noOperand {s : State} {k : Nat} (hrun : s.run = .running)
    (h : decode (fetchWindow s) = .error (.noOperand k)) (hpc : s.pc.toNat + k = 256) :
    step s = .next (haltedWith 5#3 256#9 s) := by
  rw [step_of_error hrun h, rejectHalt, hpc]
  rfl

theorem decode_alu_noOperand {ib : Byte} {rest : List Byte} (halu : ib.getLsbD 5 = true)
    (hlen : rest.length ≤ 1) : decode (ib :: rest) = .error (.noOperand (rest.length + 1)) := by
  have halu' : (decodeFields ib).alu = true := halu
  rw [decode, if_pos halu']
  match rest, hlen with
  | [], _ => rfl
  | [_], _ => rfl

theorem decode_ldi_noOperand {ib : Byte} {rest : List Byte} (hkey : ib &&& 0x2F#8 = 0x02#8)
    (hlen : rest.length ≤ 1) : decode (ib :: rest) = .error (.noOperand (rest.length + 1)) := by
  rw [decode, decodeFields_of_key hkey]
  match rest, hlen with
  | [], _ => rfl
  | [_], _ => rfl

theorem decode_direct_noOperand {ib : Byte}
    (hkey : ib &&& 0x2F#8 ∈ [0x02#8, 0x05#8, 0x06#8, 0x07#8]) :
    decode [ib] = .error (.noOperand 1) := by
  simp only [List.mem_cons, List.not_mem_nil, or_false] at hkey
  rcases hkey with hkey | hkey | hkey | hkey <;> rw [decode, decodeFields_of_key hkey] <;> rfl

/-- Settles O12: the decoder asks for the byte at 256 before anything is validated. -/
theorem operandOutOfRangeHalts : Obligations.OperandOutOfRangeHalts := by
  intro s hrun
  constructor
  · intro hpc hbyte
    refine step_of_noOperand (k := 1) hrun ?_ (by omega)
    rw [fetchWindow_at_255 s hpc]
    rcases hbyte with hkey | halu
    · exact decode_direct_noOperand hkey
    · exact decode_alu_noOperand halu (by simp)
  · intro hpc hbyte
    refine step_of_noOperand (k := 2) hrun ?_ (by omega)
    rw [fetchWindow_at_254 s hpc]
    rcases hbyte with hkey | halu
    · exact decode_ldi_noOperand hkey (by simp)
    · exact decode_alu_noOperand halu (by simp)

/-- Settles O13: the direct table has no entry for the opcode, so no operand byte is asked for. -/
theorem undefinedDirectOpcodeHalts : Obligations.UndefinedDirectOpcodeHalts := by
  intro s hrun hpc halu hop
  obtain ⟨tail, hfetch⟩ := fetchWindow_head s hpc
  rw [step_of_error hrun (by rw [hfetch, decode_undefinedDirect halu hop])]
  rfl

/-- Settles O14: both operand bytes are fetched, and the checks of `takeReject` are those of R68. -/
theorem undefinedAluOpcodeHalts : Obligations.UndefinedAluOpcodeHalts := by
  intro s hrun hpc halu hop
  rw [step_of_error hrun (by rw [fetchWindow_three s hpc, decode_undefinedAlu halu hop]),
    ← takeReject_eq, takeReject]
  simp only [verifyRegister_false_iff]
  rfl

/-! ### The obligations about halting and the counter -/

/-- Settles O23: `step` looks at `run` first. -/
theorem haltedTakesNoStep : Obligations.HaltedTakesNoStep := fun _ => step_of_halted

/-- Settles O24: an instruction always answers, and so does a rejection. -/
theorem runningStateAlwaysSteps : Obligations.RunningStateAlwaysSteps := by
  intro s hrun
  cases hd : decode (fetchWindow s) with
  | ok i => exact ⟨execState i s, by rw [step_of_ok hrun hd, exec_eq]⟩
  | error r => exact ⟨_, step_of_error hrun hd⟩

/-- Settles O25: such a step took a halt condition, which writes three fields. -/
theorem haltingStepChangesOnlyStatus : Obligations.HaltingStepChangesOnlyStatus := by
  intro s t h ht
  obtain ⟨e, v, rfl⟩ := step_halted_inv h ht
  rfl

/-- Settles O26: a completed instruction advances by its count, a halt condition keeps the counter. -/
theorem pcAdvancesOrStays : Obligations.PcAdvancesOrStays := by
  intro s t h
  constructor
  · intro ht
    obtain ⟨i, hi, -, rfl⟩ := step_running_inv h ht
    rw [completed_pc hi, fetched_count hi]
  · intro ht
    obtain ⟨e, v, rfl⟩ := step_halted_inv h ht
    rfl

theorem hlt_key_of_fields {ib : Byte} {n : Count} (h : decodeFields ib = instrFields (.hlt n)) :
    ib &&& 0x2F#8 = 0x01#8 := by
  have hkey : instructionByte 0#2 false opHlt = 0x01#8 := rfl
  rw [key_eq, h]
  exact hkey

/-- Only HLT's halt condition is a clean end: the five codes are distinct. -/
theorem clean_raise_iff (e : Condition) (v : PcWord) (s : State) :
    Clean (raise e v s) ↔ e = .halt := by
  rw [Clean, raise_run, raise_cause]
  cases e <;> decide

/-- An execution that ends cleanly from a Running state is HLT's. -/
theorem clean_execState {i : Instr} {s : State} (hrun : s.run = .running)
    (h : Clean (execState i s)) : ∃ n, i = .hlt n := by
  cases hh : haltOf i with
  | none =>
    rw [execState_of_completes hh, Clean, advance_run, effect_run, hrun] at h
    cases h.1
  | some c =>
    rw [execState_of_halts hh, clean_raise_iff] at h
    obtain ⟨n, hi, -⟩ | ⟨b, -, rfl⟩ := haltOf_some hh
    · exact ⟨n, hi⟩
    · cases h

/-- Settles O27: a clean end is HLT's halt condition, which no rejection takes, and the byte of a
fetched HLT has HLT's key. -/
theorem cleanHaltOnlyByHlt : Obligations.CleanHaltOnlyByHlt := by
  intro s t h
  have hrun := step_running h
  constructor
  · intro hclean
    obtain ⟨-, ⟨i, hi, he⟩ | ⟨r, -, rfl⟩⟩ := step_cases h
    · rw [exec_eq] at he
      cases he
      obtain ⟨n, rfl⟩ := clean_execState hrun hclean
      obtain ⟨hfields, hfit⟩ := fetched_inv hi
      exact ⟨by omega, hlt_key_of_fields hfields⟩
    · obtain ⟨e, v, hne, he⟩ := takeReject_raises r s
      rw [he, clean_raise_iff] at hclean
      exact absurd hclean hne
  · rintro ⟨hpc, hkey⟩
    rw [step_of_hlt_key hrun hpc hkey] at h
    cases h
    exact (clean_raise_iff .halt 0#9 s).2 rfl

/-! ### The obligations about what a step leaves alone -/

/-- Settles O28: a halt condition and every effect but PUSH's keep the memory. -/
theorem onlyPushWritesMemory : Obligations.OnlyPushWritesMemory := by
  intro s t h hmem
  obtain ⟨e, v, rfl⟩ | ⟨i, hi, -, rfl⟩ := step_inv h
  · exact absurd rfl hmem
  · obtain ⟨n, src, rfl⟩ := effect_mem_changed hmem
    exact ⟨n, src, hi, fun a => effect_push_get_ne n src s⟩

/-- Settles O29: a halt condition and every effect but PRN's keep the output. -/
theorem onlyPrnExtendsOutput : Obligations.OnlyPrnExtendsOutput := by
  intro s t h hout
  obtain ⟨e, v, rfl⟩ | ⟨i, hi, -, rfl⟩ := step_inv h
  · exact absurd rfl hout
  · obtain ⟨n, src, rfl⟩ := effect_out_changed hout
    exact ⟨n, src, hi, rfl⟩

/-- Settles O30: a halt condition keeps every register, an effect those it does not write. -/
theorem onlyDestinationsChange : Obligations.OnlyDestinationsChange := by
  intro s t r h hreg
  obtain ⟨e, v, rfl⟩ | ⟨i, hi, -, rfl⟩ := step_inv h
  · exact absurd rfl hreg
  · exact ⟨i, hi, by_contra fun hr => hreg (effect_getReg_ne hr s)⟩

/-- Settles O31: neither the halt condition nor the effect looks at the count. -/
theorem operandCountOnlyMovesPc : Obligations.OperandCountOnlyMovesPc := by
  intro i m s t h
  have hhalt : haltOf (i.withCount m) = haltOf i := by cases i <;> rfl
  have heffect : effect (i.withCount m) s = effect i s := by cases i <;> rfl
  rw [exec_eq] at h
  cases h
  refine ⟨_, exec_eq _ s, ?_⟩
  cases hh : haltOf i with
  | none =>
    rw [execState_of_completes hh, execState_of_completes (hhalt.trans hh), heffect]
    rfl
  | some c => rw [execState_of_halts hh, execState_of_halts (hhalt.trans hh)]

/-- Two states with the same memory, counter and `run` take the same step: the same halt condition,
or the same instruction. -/
theorem step_same_fetch {s s' t : State} (h : step s = .next t) (hmem : s'.mem = s.mem)
    (hpc : s'.pc = s.pc) (hrun : s'.run = s.run) :
    (∃ e v, t = raise e v s ∧ step s' = .next (raise e v s')) ∨
    ∃ i, t = advance i.count (effect i s) ∧ step s' = .next (advance i.count (effect i s')) := by
  have hrun' := hrun.trans (step_running h)
  have hfetch : fetchWindow s' = fetchWindow s := by rw [fetchWindow, hmem, hpc, fetchWindow]
  obtain ⟨-, ⟨i, hi, he⟩ | ⟨r, hr, rfl⟩⟩ := step_cases h
  · rw [exec_eq] at he
    cases he
    rw [step_of_ok hrun' (hfetch ▸ hi), exec_eq]
    cases hh : haltOf i with
    | none =>
      rw [execState_of_completes hh, execState_of_completes hh]
      exact .inr ⟨i, rfl, rfl⟩
    | some c =>
      rw [execState_of_halts hh, execState_of_halts hh]
      exact .inl ⟨_, _, rfl, rfl⟩
  · rw [step_of_error hrun' (hfetch ▸ hr), takeReject_eq, hpc]
    exact .inl ⟨_, _, rfl, rfl⟩

/-- Settles O32: both states take the same step. A halt condition appends nothing and writes the same
status; the effect of an instruction carries the three fields along. -/
theorem statusAndOutputNeverRead : Obligations.StatusAndOutputNeverRead := by
  intro s t c v o h
  obtain ⟨e, w, rfl, hstep⟩ | ⟨i, rfl, hstep⟩ :=
    step_same_fetch (s' := { s with cause := c, info := v, out := o }) h rfl rfl rfl
  · exact ⟨_, [], hstep, rfl, rfl, rfl, rfl, (List.append_nil _).symm, (List.append_nil _).symm,
      fun _ => ⟨rfl, rfl⟩, nofun⟩
  · obtain ⟨d, hd, heffect⟩ := effect_of_status i s c v o
    rw [heffect] at hstep
    refine ⟨_, d, hstep, rfl, rfl, rfl, rfl, hd, rfl, fun hhalt => ?_, fun _ => ?_⟩
    · rw [advance_run, effect_run, step_running h] at hhalt
      cases hhalt
    · exact ⟨⟨effect_cause i s, effect_info i s⟩, rfl, rfl⟩

end Sys2Proof.Machine
end

section
/-! The proofs about the single instructions: completion, result and frame (41_alu.md to 44_halt.md). -/

namespace Sys2Proof.Machine

open Sys2Proof.Safety

/-! ### Halt conditions -/

/-- Settles O15: HLT is its halt condition. -/
theorem hltHaltsAndChangesNothingElse : Obligations.HltHaltsAndChangesNothingElse :=
  execHlt_eq

/-- Settles O22: `raise` writes the three fields, with the code of each condition. -/
theorem haltEntryWritesThreeFields : Obligations.HaltEntryWritesThreeFields := by
  intro v s
  exact ⟨raise_eq .halt v s, raise_eq .invalidRegister v s, raise_eq .invalidOpcode v s,
    raise_eq .unsupportedOperation v s, raise_eq .outOfRange v s⟩

/-- Settles O21: the first operand byte that fails the check is the one reported. -/
theorem invalidRegisterOperandHalts : Obligations.InvalidRegisterOperandHalts := by
  intro n bad s hbad
  have hinvalid : verifyRegister bad = false := (verifyRegister_false_iff bad).2 hbad
  have hfirst : ∀ bs, operandHalt (bad :: bs) = some (.invalidRegister, bad.setWidth 9) :=
    fun bs => by simp [operandHalt, hinvalid]
  have hsecond {a : Byte} (ha : a.toNat ≤ 7) :
      operandHalt [a, bad] = some (.invalidRegister, bad.setWidth 9) := by
    simp [operandHalt, (verifyRegister_iff a).2 ha, hinvalid]
  have hhalts (i : Instr) (h : haltOf i = some (.invalidRegister, bad.setWidth 9)) :
      exec i s = .next (haltedWith 2#3 (bad.setWidth 9) s) := by
    rw [exec_eq, execState_of_halts h]
    rfl
  exact ⟨fun imm => hhalts (.ldi n bad imm) (hfirst []), hhalts (.push n bad) (hfirst []),
    hhalts (.pop n bad) (hfirst []), hhalts (.prn n bad) (hfirst []),
    fun b => hhalts (.mul n bad b) (hfirst [b]), fun a ha => hhalts (.mul n a bad) (hsecond ha)⟩

/-! ### Completion -/

/-- Settles O16: one register write, then the advance. -/
theorem ldiLoadsImmediate : Obligations.LdiLoadsImmediate := by
  intro n d imm s hpc hd
  refine ⟨_, execLdi_valid ((verifyRegister_iff d).2 hd) n imm s, ?_, fun r hr => ?_, ?_,
    fun _ => rfl, ⟨rfl, rfl, rfl⟩, rfl⟩
  · rw [getReg_advance, getReg_setReg_same]
  · rw [getReg_advance, getReg_setReg_ne _ _ hr]
  · exact advance_pc_toNat n _ hpc

/-- Settles O17: one byte appended to the output, then the advance. -/
theorem prnEmitsRegister : Obligations.PrnEmitsRegister := by
  intro n src s hpc hsrc
  exact ⟨_, execPrn_valid ((verifyRegister_iff src).2 hsrc) n s, rfl, fun _ => rfl,
    advance_pc_toNat n _ hpc, fun _ => rfl, rfl, rfl, rfl⟩

/-- Settles O38: the unit's result on the old values is one register write. -/
theorem aluWritesOnlyFirstRegister : Obligations.AluWritesOnlyFirstRegister := by
  intro op a b s
  rw [aluApply_eq]
  exact ⟨getReg_setReg_same a _ s, fun r hr => getReg_setReg_ne _ s hr, rfl⟩

/-- Settles O18: the MUL unit's result goes to register A, and the ALU touches nothing else. -/
theorem mulMultipliesIntoFirst : Obligations.MulMultipliesIntoFirst := by
  intro n a b s hpc ha hb
  obtain ⟨hresult, hframe, -⟩ := aluWritesOnlyFirstRegister .mul (regIndex a) (regIndex b) s
  refine ⟨_, execMul_valid ((verifyRegister_iff a).2 ha) ((verifyRegister_iff b).2 hb) n s,
    ?_, hframe, advance_pc_toNat n _ hpc, fun _ => rfl, ⟨rfl, rfl, rfl⟩, rfl⟩
  rw [getReg_advance, hresult]
  exact mulByte_toNat _ _

/-! ### The stack -/

@[simp] theorem getReg_decSp_sp (s : State) : getReg (decSp s) 7#3 = spDec (getReg s 7#3) :=
  getReg_setReg_same _ _ s

theorem getReg_decSp_ne (s : State) {r : RegIdx} (h : r ≠ 7#3) :
    getReg (decSp s) r = getReg s r :=
  getReg_setReg_ne _ s h

@[simp] theorem getReg_incSp_sp (s : State) : getReg (incSp s) 7#3 = spInc (getReg s 7#3) :=
  getReg_setReg_same _ _ s

theorem getReg_incSp_ne (s : State) {r : RegIdx} (h : r ≠ 7#3) :
    getReg (incSp s) r = getReg s r :=
  getReg_setReg_ne _ s h

theorem stackAddr_decSp (s : State) :
    stackAddr (decSp s) = ((getReg s 7#3).toNat + 255) % 256 := by
  rw [stackAddr, spIndex_eq, getReg_decSp_sp, spDec_toNat]

/-- What PUSH stores is read back below the stack, from canonical memory. -/
theorem effect_push_get_same (n : Count) (src : Byte) {s : State} (hm : Memory.wf s.mem) :
    Memory.get (effect (.push n src) s).mem (stackAddr (decSp s)) =
      getReg (decSp s) (regIndex src) :=
  Memory.get_put_same hm _ _

theorem exec_push_valid {src : Byte} (h : src.toNat ≤ 7) (n : Count) (s : State) :
    exec (.push n src) s = .next (advance n (effect (.push n src) s)) :=
  execPush_valid ((verifyRegister_iff src).2 h) n s

theorem exec_pop_valid {d : Byte} (h : d.toNat ≤ 7) (n : Count) (s : State) :
    exec (.pop n d) s = .next (advance n (effect (.pop n d) s)) :=
  execPop_valid ((verifyRegister_iff d).2 h) n s

/-- A pop's destination, if it is not the stack pointer, gets the byte at the pointer. -/
theorem effect_pop_getReg (n : Count) {d : Byte} (s : State) (h : regIndex d ≠ 7#3) :
    getReg (effect (.pop n d) s) (regIndex d) = Memory.get s.mem (stackAddr s) := by
  rw [effect, getReg_incSp_ne _ h, getReg_setReg_same]

/-- The pointer goes up by one after the load, which POP R7 makes into the pointer itself. -/
theorem effect_pop_sp (n : Count) (d : Byte) (s : State) :
    getReg (effect (.pop n d) s) 7#3 = spInc
      (if 7#3 = regIndex d then Memory.get s.mem (stackAddr s) else getReg s 7#3) := by
  rw [effect, getReg_incSp_sp, getReg_setReg]

/-- Settles O19: the pointer is decremented first, and address and value are read after that. -/
theorem pushStoresBelowStack : Obligations.PushStoresBelowStack := by
  intro n src s hpc hsrc
  have hsp : getReg (advance n (effect (.push n src) s)) 7#3 = spDec (getReg s 7#3) :=
    getReg_decSp_sp s
  refine ⟨_, exec_push_valid hsrc n s, ?_, fun r hr => getReg_decSp_ne s hr, stackAddr_decSp s,
    fun hm => ?_, fun a => effect_push_get_ne n src s, ?_, ⟨rfl, rfl, rfl⟩, rfl⟩
  · rw [hsp, spDec_toNat]
  · rw [advance_mem, effect_push_get_same n src hm, hsp]
    split
    · next h => rw [h, getReg_decSp_sp]
    · next h => exact getReg_decSp_ne s h
  · exact advance_pc_toNat n _ hpc

/-- Settles O20: the load comes first, then the increment, which POP R7 applies to the loaded byte. -/
theorem popLoadsTopOfStack : Obligations.PopLoadsTopOfStack := by
  intro n d s hpc hd
  refine ⟨_, exec_pop_valid hd n s, fun h => ⟨effect_pop_getReg n s h, ?_⟩, fun h => ?_,
    fun r hrd hr => ?_, advance_pc_toNat n _ hpc, fun _ => rfl, ⟨rfl, rfl, rfl⟩, rfl⟩
  · rw [getReg_advance, effect_pop_sp, if_neg (Ne.symm h), spInc_toNat]
  · rw [getReg_advance, effect_pop_sp, if_pos h.symm, spInc_toNat]
    rfl
  · exact effect_getReg_ne (by simp [writtenRegs, hrd, hr]) s

/-- Settles O33: the next window begins with the cell that PUSH stored to. -/
theorem storeSeenByNextFetch : Obligations.StoreSeenByNextFetch := by
  intro n src s t hm hsrc h hpc
  rw [exec_push_valid hsrc] at h
  cases h
  have haddr := stackAddr_lt (decSp s)
  rw [fetchWindow_getElem?, if_pos (by omega), byteAt, hpc, Nat.add_zero, advance_mem,
    effect_push_get_same n src hm]

theorem regIndex_ne_sp {b : Byte} (h : b.toNat ≤ 6) : regIndex b ≠ 7#3 := by
  intro heq
  have hseven : b.toNat % 8 = 7 := by rw [← regIndex_toNat, heq]; rfl
  omega

/-- Settles O34: the pop reads the cell the push stored to, and its increment undoes the decrement. -/
theorem pushThenPopRestores : Obligations.PushThenPopRestores := by
  intro n m src d s hm hsrc hd
  have hstored : Memory.get (effect (.push n src) s).mem (stackAddr (decSp s)) =
      getReg s (regIndex src) := by
    rw [effect_push_get_same n src hm, getReg_decSp_ne s (regIndex_ne_sp hsrc)]
  refine ⟨_, _, exec_push_valid (by omega) n s, exec_pop_valid (by omega) m _, ?_, ?_, ?_⟩
  · exact (effect_pop_getReg m _ (regIndex_ne_sp hd)).trans hstored
  · rw [getReg_advance, effect_pop_sp, if_neg (Ne.symm (regIndex_ne_sp hd))]
    exact (congrArg spInc (getReg_decSp_sp s)).trans (spInc_spDec _)
  · rw [← stackAddr_decSp]
    exact hstored

end Sys2Proof.Machine
end

section
/-! The proofs about memory writes, reset, load, the invariant and the end of every run
(10_state.md section 5, 20_memory.md, 70_reset_and_hazards.md). -/

namespace Sys2Proof.Machine

open Sys2Proof.Safety

/-! ### Memory writes and the load -/

/-- Settles O36: the write is out of range or a `put`, whose laws are read through `memRead`. -/
theorem memWriteContract : Obligations.MemWriteContract := by
  intro m a v
  refine ⟨fun ha => by rw [memWrite_eq, if_pos ha], fun ha hm => ?_⟩
  refine ⟨_, memWrite_of_lt m v ha, Memory.put_wf hm ha v, ?_, fun b hb => ?_⟩
  · rw [memRead_of_lt _ ha, Memory.get_put_same hm]
  · rw [memRead_eq, memRead_eq, Memory.get_put_ne m v hb]

/-- Storing bytes that fit in memory puts each at its address. -/
theorem storeBytes_get_at {m : Memory} (hm : Memory.wf m) (a : Nat) (bs : List Byte)
    (hfit : a + bs.length ≤ 256) (k : Nat) (hk : k < bs.length) :
    Memory.get (storeBytes m a bs) (a + k) = bs[k] := by
  induction bs generalizing m a k with
  | nil => cases hk
  | cons b bs ih =>
    rw [List.length_cons] at hfit hk
    rw [storeBytes, memSize_eq, if_neg (by omega)]
    cases k with
    | zero =>
      rw [storeBytes_get_lt _ _ _ (by omega)]
      exact Memory.get_put_same hm a b
    | succ k =>
      have hcell := ih (Memory.put_wf hm (a := a) (by omega) b) (a + 1) (by omega) k (by omega)
      rw [Nat.add_right_comm] at hcell
      exact hcell

/-- Settles O41: the stored bytes are read back, and no address beyond them is written. -/
theorem loadPlacesImageInMemory : Obligations.LoadPlacesImageInMemory := by
  intro p
  have hfit : 0 + p.bytes.length ≤ 256 := by rw [Nat.zero_add]; exact p.fits
  refine ⟨fun a ha => ?_, fun a ha => ?_, rfl⟩
  · have hcell := storeBytes_get_at Memory.wf_nil 0 p.bytes hfit a ha
    rw [Nat.zero_add] at hcell
    exact hcell
  · exact storeBytes_get_ge [] 0 p.bytes (by omega)

/-- Settles O39: every field of the reset state is a constant. -/
theorem resetValues : Obligations.ResetValues := by
  intro s
  have hregs : ∀ r : RegIdx, r ≠ 7#3 → getReg State.reset r = 0#8 := by decide
  exact ⟨rfl, hregs, rfl, fun _ => rfl, rfl, rfl, rfl, rfl, rfl⟩

/-! ### The invariant -/

/-- The reset state with any canonical memory meets the invariant. -/
theorem inv_reset_with {m : Memory} (hm : Memory.wf m) : Inv { State.reset with mem := m } :=
  ⟨⟨fun _ => ⟨rfl, rfl⟩, nofun⟩, Nat.zero_le 259, hm⟩

/-- Settles O40: the reset memory is empty, hence canonical. -/
theorem resetSatisfiesInvariant : Obligations.ResetSatisfiesInvariant :=
  inv_reset_with Memory.wf_nil

/-- Settles O42: storing an image keeps memory canonical. -/
theorem loadedMachineSatisfiesInvariant : Obligations.LoadedMachineSatisfiesInvariant := by
  intro p
  rw [initWith_eq]
  exact inv_reset_with (storeBytes_wf Memory.wf_nil 0 p.bytes)

theorem infoFits_invalidRegister {b : Byte} (h : verifyRegister b = false) :
    InfoFits (causeCode .invalidRegister) (b.setWidth 9) :=
  .inr (.inl ⟨rfl, invalid_info_range b h⟩)

/-- An address from 256 to 259 is what OutOfRange may record. -/
theorem infoFits_outOfRange {a : Nat} (hlo : 256 ≤ a) (hhi : a ≤ 259) :
    InfoFits (causeCode .outOfRange) (BitVec.ofNat 9 a) := by
  have ha : (BitVec.ofNat 9 a).toNat = a := by
    rw [BitVec.toNat_ofNat]
    omega
  exact .inr (.inr (.inr (.inr ⟨rfl, by omega, by omega⟩)))

theorem opcode_setWidth_toNat (op : Opcode) : (op.setWidth 9).toNat = op.toNat := by
  have := op.isLt
  rw [BitVec.toNat_setWidth]
  omega

theorem infoFits_invalidOpcode {op : Opcode}
    (h : op.toNat ∈ [0, 3, 4, 8, 9, 10, 11, 12, 13, 14, 15]) :
    InfoFits (causeCode .invalidOpcode) (op.setWidth 9) :=
  .inr (.inr (.inl ⟨rfl, (opcode_setWidth_toNat op).symm ▸ h⟩))

theorem infoFits_unsupported {op : Opcode} (h : op ≠ opMul) :
    InfoFits (causeCode .unsupportedOperation) (op.setWidth 9) := by
  have := op.isLt
  have hne : op.toNat ≠ 2 := fun heq => h (BitVec.eq_of_toNat_eq heq)
  refine .inr (.inr (.inr (.inl ⟨rfl, ?_⟩)))
  rw [opcode_setWidth_toNat]
  omega

theorem infoFits_haltOf {i : Instr} {c : Condition × PcWord} (h : haltOf i = some c) :
    InfoFits (causeCode c.1) c.2 := by
  obtain ⟨n, -, rfl⟩ | ⟨b, hb, rfl⟩ := haltOf_some h
  · exact .inl ⟨rfl, rfl⟩
  · exact infoFits_invalidRegister hb

/-- What a rejected fetch records: a missing byte is the one at 256, unless the counter is beyond. -/
theorem infoFits_rejectHalt {s : State} {r : Reject} (hpc : s.pc.toNat ≤ 259)
    (h : decode (fetchWindow s) = .error r) :
    InfoFits (causeCode (rejectHalt r s.pc).1) (rejectHalt r s.pc).2 := by
  have hlen := fetchWindow_length s
  have hfits := decode_error_fits h
  cases r with
  | noByte =>
    rw [RejectFits] at hfits
    exact infoFits_outOfRange (by omega) hpc
  | noOperand k =>
    rw [RejectFits] at hfits
    exact infoFits_outOfRange (by omega) (by omega)
  | undefinedDirect op => exact infoFits_invalidOpcode hfits
  | undefinedAlu op a b =>
    rw [rejectHalt]
    cases hh : operandHalt [a, b] with
    | none => exact infoFits_unsupported hfits
    | some c =>
      obtain ⟨x, hx, rfl⟩ := operandHalt_some hh
      exact infoFits_invalidRegister hx

theorem inv_raise {e : Condition} {v : PcWord} {s : State} (hs : Inv s)
    (hfits : InfoFits (causeCode e) v) : Inv (raise e v s) :=
  ⟨⟨nofun, fun _ => hfits⟩, hs.2⟩

/-- Settles O43: a halt condition records a value in its range, and a completed instruction keeps the
status, moves the counter from at most 255 and keeps memory canonical. -/
theorem stepKeepsInvariant : Obligations.StepKeepsInvariant := by
  intro s t hs h
  have ⟨hstatus, hpc, hmem⟩ := hs
  obtain ⟨-, ⟨i, hi, he⟩ | ⟨r, hr, rfl⟩⟩ := step_cases h
  · rw [exec_eq] at he
    cases he
    cases hh : haltOf i with
    | some c =>
      rw [execState_of_halts hh]
      exact inv_raise hs (infoFits_haltOf hh)
    | none =>
      rw [execState_of_completes hh]
      refine ⟨?_, ?_, effect_wf i hmem⟩
      · rw [StatusFits, advance_run, advance_cause, advance_info, effect_run, effect_cause,
          effect_info]
        exact hstatus
      · have hfit := (fetched_inv hi).2
        have hcount := i.count.isLt
        rw [completed_pc hi]
        omega
  · rw [takeReject_eq]
    exact inv_raise hs (infoFits_rejectHalt hpc hr)

/-- Settles O44: an instruction that completes has an operand byte in memory, so it begins at 254 or
below. -/
theorem pcNeverAbove258 : Obligations.PcNeverAbove258 := by
  intro s t hpc h
  obtain ⟨e, v, rfl⟩ | ⟨i, hi, hh, rfl⟩ := step_inv h
  · exact hpc
  · have hfit := (fetched_inv hi).2
    have hoperand := operandList_pos hh
    have hcount := i.count.isLt
    rw [completed_pc hi]
    omega

/-! ### The end of every run -/

theorem runFor_of_halted {s : State} (h : s.run = .halted) (k : Nat) : runFor k s = s := by
  cases k with
  | zero => rfl
  | succ k => rw [runFor, step_of_halted h]

theorem runFor_of_next {s t : State} (h : step s = .next t) (k : Nat) :
    runFor (k + 1) s = runFor k t := by
  rw [runFor, h]

/-- A step that leaves the machine Running began in memory and moved the counter up. -/
theorem step_running_pc {s t : State} (h : step s = .next t) (ht : t.run = .running) :
    s.pc.toNat ≤ 255 ∧ s.pc.toNat + 1 ≤ t.pc.toNat := by
  obtain ⟨i, hi, -, rfl⟩ := step_running_inv h ht
  have hfit := (fetched_inv hi).2
  rw [completed_pc hi]
  omega

/-- One more step ends the run if the rest of it does from every Running next state. -/
theorem runFor_succ_halts {k : Nat} {s : State}
    (hnext : ∀ t, step s = .next t → t.run = .running → (runFor k t).run = .halted) :
    (runFor (k + 1) s).run = .halted := by
  cases hrun : s.run with
  | halted => rw [runFor_of_halted hrun, hrun]
  | running =>
    obtain ⟨t, h⟩ := runningStateAlwaysSteps s hrun
    rw [runFor_of_next h]
    cases ht : t.run with
    | halted => rw [runFor_of_halted ht, ht]
    | running => exact hnext t h ht

/-- Each step brings the counter closer to the end of memory, where the next one halts. -/
theorem runFor_halts (k : Nat) (s : State) (hk : 256 ≤ s.pc.toNat + k) :
    (runFor (k + 1) s).run = .halted := by
  induction k generalizing s with
  | zero =>
    refine runFor_succ_halts fun t h ht => ?_
    obtain ⟨hpc, -⟩ := step_running_pc h ht
    omega
  | succ k ih =>
    refine runFor_succ_halts fun t h ht => ih t ?_
    obtain ⟨-, hpc⟩ := step_running_pc h ht
    omega

/-- Settles O45: 256 steps bring any counter to the end of memory, and one more halts. -/
theorem runEndsWithin257Steps : Obligations.RunEndsWithin257Steps := by
  intro s
  exact runFor_halts 256 s (by omega)

end Sys2Proof.Machine
end
